-- ==== Sys2Proof/Word.lean ====
section
/-! DEFINITION. The machine word and its plainest arithmetic (spec/00_scope.md R9 to R12). -/

namespace Sys2Proof

/-- A word (R12): the 32-bit pattern, identified with the signed integer `BitVec.toInt` reads from it
(R11). `W` = 32 (R9, R10). -/
abbrev Word := BitVec 32

/-- The index of a general register, 0 to 15 (R20). Index 0 is the zero register, index 15 the
program counter. No index outside this range exists (R23). -/
abbrev Reg := Fin 16

/-- The index of the program-counter register (R9). -/
def pcReg : Reg := 15

/-- The 12-bit offset field, a two's-complement pattern (R9, R63). -/
abbrev Offset := BitVec 12

/-- The least word, `-2^31` (R12). -/
def wordMin : Int := -2147483648

/-- The greatest word, `2^31 - 1` (R12). -/
def wordMax : Int := 2147483647

/-- Whether a mathematical integer is a word (R12). -/
def inWordRange (e : Int) : Bool := decide (wordMin ≤ e ∧ e ≤ wordMax)

/-- `wrap(v)`: the unique word congruent to `v` modulo 2^32 (R12). -/
def wrap (e : Int) : Word := BitVec.ofInt 32 e

end Sys2Proof
end

