-- ==== Sys2Proof/Syntax.lean ====
section
/-! DEFINITION. The abstract syntax: flags, masks, opcodes, the fields of the one instruction format and
the instructions (spec/30_encoding.md R59 to R70). -/

namespace Sys2Proof

/-- The four condition flags (R27): Minus, Zero, Plus and Fault. The always-true sentinel and the
empty pattern are no flags, so a current condition can be neither. -/
inductive Flag where
  | m
  | z
  | p
  | v
deriving DecidableEq, Repr

/-- A condition mask: a bit set of permitted flags (R64), a type of its own beside `Flag`. Every one
of the 16 values is legal. -/
abbrev Mask := BitVec 4

/-- ALWAYS, the union of all flag bits (R64). -/
def Mask.always : Mask := 0b1111#4

/-- NEVER, which matches no condition (R64). -/
def Mask.never : Mask := 0b0000#4

/-- The operations the decoder names and the ALU takes (R62, R79). `invalid` is the variant the
undefined opcode numbers 7 to 15 decode to. -/
inductive Opcode where
  | halt
  | load
  | store
  | add
  | sub
  | mul
  | div
  | invalid
deriving DecidableEq, Repr

/-- The fields of a decoded instruction other than its opcode (R60, R61). Every value of every field
is legal with every opcode (R65, R68). -/
structure Fields where
  /-- The condition mask. -/
  mask : Mask
  /-- The target register (the data source of STORE). -/
  t : Reg
  /-- Source register 1. -/
  s1 : Reg
  /-- Source register 2. -/
  s2 : Reg
  /-- The signed offset; its value is `off.toInt` (R63). -/
  off : Offset
deriving DecidableEq, Repr

/-- The instructions, one constructor per row of spec/opcode_table.json. The table gives INVALID two
rows, opcode 7 and opcodes 8 to 15; both are the variant INVALID of R62, which keeps the fields and
not the opcode number (spec/95_test_vectors.md 2.3). -/
inductive Instr where
  | halt (f : Fields)
  | load (f : Fields)
  | store (f : Fields)
  | add (f : Fields)
  | sub (f : Fields)
  | mul (f : Fields)
  | div (f : Fields)
  /-- The table's INVALID row with opcode 7. -/
  | invalid7 (f : Fields)
  /-- The table's INVALID row with opcodes 8 to 15. -/
  | invalidHigh (f : Fields)
deriving DecidableEq, Repr

/-- The `op` of the decoded record (R61, R70). -/
def Instr.op : Instr → Opcode
  | .halt _ => .halt
  | .load _ => .load
  | .store _ => .store
  | .add _ => .add
  | .sub _ => .sub
  | .mul _ => .mul
  | .div _ => .div
  | .invalid7 _ => .invalid
  | .invalidHigh _ => .invalid

/-- The five other fields of the decoded record (R61, R70). -/
def Instr.fields : Instr → Fields
  | .halt f => f
  | .load f => f
  | .store f => f
  | .add f => f
  | .sub f => f
  | .mul f => f
  | .div f => f
  | .invalid7 f => f
  | .invalidHigh f => f

end Sys2Proof
end

