-- ==== Sys2Proof/WellFormed.lean ====
section
/-! DEFINITION. Which instructions the encoding formula of the spec is given for (spec/30_encoding.md
R69). The ranges of the fields are in their types. -/

namespace Sys2Proof

/-- R69 gives the encoding for `op` in 0 to 6; "encode has no INVALID input"
(spec/95_test_vectors.md 2.3). An ill-formed instruction is still decoded (R66) and executed (R121). -/
def WellFormed (i : Instr) : Bool := i.op != .invalid

end Sys2Proof
end

