-- ==== Sys2Proof/Decode.lean ====
section
/-! DEFINITION. Decoding and encoding an instruction word (spec/30_encoding.md R59 to R72). -/

namespace Sys2Proof

/-- The five fields of a word below its opcode (R60, R61). -/
def fieldsOf (w : Word) : Fields :=
  { mask := w.extractLsb' 24 4
    t := (w.extractLsb' 20 4).toFin
    s1 := (w.extractLsb' 16 4).toFin
    s2 := (w.extractLsb' 12 4).toFin
    off := w.extractLsb' 0 12 }

/-- The opcode number of a word, its bits 31:28 (R60). -/
def opcodeNumber (w : Word) : Nat := (w.extractLsb' 28 4).toNat

/-- `decode` (R61, R62): total, and never failing (R66). The numbers 7 to 15 decode to INVALID. -/
def decode (w : Word) : Instr :=
  match opcodeNumber w with
  | 0 => .halt (fieldsOf w)
  | 1 => .load (fieldsOf w)
  | 2 => .store (fieldsOf w)
  | 3 => .add (fieldsOf w)
  | 4 => .sub (fieldsOf w)
  | 5 => .mul (fieldsOf w)
  | 6 => .div (fieldsOf w)
  | 7 => .invalid7 (fieldsOf w)
  | _ => .invalidHigh (fieldsOf w)

/-- The opcode field of an instruction's word (R62). DESIGN CHOICE (safe, log entry 7): R69 gives
no encoding for INVALID; the model takes 7 for the table's first INVALID row and 8, the least of 8
to 15, for its second. -/
def opcodeField : Instr → BitVec 4
  | .halt _ => 0
  | .load _ => 1
  | .store _ => 2
  | .add _ => 3
  | .sub _ => 4
  | .mul _ => 5
  | .div _ => 6
  | .invalid7 _ => 7
  | .invalidHigh _ => 8

/-- The word with these six fields (R60): their concatenation, the opcode highest. -/
def assembleWord (op : BitVec 4) (f : Fields) : Word :=
  op ++ f.mask ++ BitVec.ofFin (w := 4) f.t ++ BitVec.ofFin (w := 4) f.s1 ++ BitVec.ofFin (w := 4) f.s2 ++ f.off

/-- `encode` (R69). -/
def encode (i : Instr) : Word := assembleWord (opcodeField i) i.fields

/-- The instruction the decoder reads from a table row's bits: one 32-bit word (R59), numbered as
the table numbers it. Bits above `nbits` are 0; a number that does not fit the word is refused. -/
def decodeTableWord (nbits w : Nat) : Option Instr :=
  if w < 2 ^ nbits ∧ w < 2 ^ 32 then some (decode (BitVec.ofNat 32 w)) else none

end Sys2Proof
end

