-- ==== Sys2Proof/Config.lean ====
section
/-! DEFINITION. The parameters of the hardware (spec/00_scope.md R9): the types of those the spec
leaves open, the behaviour of devices as a free parameter, and the values the state after reset
takes. -/

namespace Sys2Proof

/-- What happens to a value outside the word range (spec/40_alu.md R84, decision D2). -/
inductive OverflowPolicy where
  /-- Reduce modulo 2^32; the flag is that of the wrapped word. -/
  | wrap
  /-- The result is 0 with flag V. The OPEN alternative. -/
  | fault
deriving DecidableEq, Repr

/-- The order of the PC advance and a write to r15 (spec/41_step.md R104, R105, decision D7). -/
inductive PcOrder where
  | writeWins
  | incrementAfterWrite
  | advanceOverrides
  | advanceBeforeWriteback
deriving DecidableEq, Repr

/-- What the memory does on one access (spec/20_memory.md R43, R50): the word it answers (not used for a
write), the state its devices go to, and the words of `Mem.word` the access sets, in order. -/
structure MemAnswer where
  word : Word
  state : Nat
  changes : List (Word × Word)
deriving DecidableEq, Repr, Inhabited

/-- The device behaviour of the parameter `Mem` (R43, R50; spec/93_implementation_defined.md I10): what
a read and a write do at an address that is a device's. Both take the devices' state and the address;
a read also takes `Mem.word` there, a write the word written. A fetch and a LOAD are the same
read, `MemRead` (R42). -/
structure DeviceBehaviour where
  read : Nat → Word → Word → MemAnswer
  write : Nat → Word → Word → MemAnswer

/-- DESIGN CHOICE (safe, log entry 10): what a device does on a read, a free value: the spec makes it a
part of the parameter `Mem` and gives it no value. -/
opaque Config.deviceRead : Nat → Word → Word → MemAnswer

/-- DESIGN CHOICE (safe, log entry 10): what a device does on a write, a free value. -/
opaque Config.deviceWrite : Nat → Word → Word → MemAnswer

/-- The device behaviour of this hardware, of which nothing is known. -/
def Config.device : DeviceBehaviour := { read := Config.deviceRead, write := Config.deviceWrite }

/-- The parameters a step depends on (R9). The values of this hardware are
`Machine.hardware` in Sys2Proof/Machine/Ops.lean. -/
structure Params where
  overflow : OverflowPolicy
  pcOrder : PcOrder
  device : DeviceBehaviour := Config.device

/-- What stands behind a range of addresses (spec/20_memory.md R43). -/
inductive RegionKind where
  /-- Plain storage: a read answers the last word written. -/
  | storage
  /-- A device: reads and writes may have side effects, which are the memory's to define (R50, R134);
  they are `Params.device`. -/
  | device
deriving DecidableEq, Repr

/-- One range of addresses the memory admits, from `lo` to `hi` with both ends in it. Addresses are
signed words (R44). -/
structure Region where
  lo : Int
  hi : Int
  kind : RegionKind
deriving DecidableEq, Repr

/-- DESIGN CHOICE (unsafe, log entry 1): `INIT_REGS`, the values of r1 to r15 at power-on. The spec
gives none (R36) and names `INIT_REGS` as the OPEN alternative for a model that needs values
(decision D13). -/
def Config.initRegs : Reg → Word := fun _ => 0

/-- DESIGN CHOICE (unsafe, log entry 2): `INIT_CONDITION`, OPEN in the spec (R36, decision D14). -/
def Config.initCondition : Flag := .z

/-- DESIGN CHOICE (unsafe, log entry 3): `Mem.valid` at reset. The spec leaves it OPEN (R43, decision
D8); every word address is admitted and is plain storage. -/
def Config.platform : List Region := [{ lo := wordMin, hi := wordMax, kind := .storage }]

/-- DESIGN CHOICE (unsafe, log entry 4): what an address reads as that neither the host nor a STORE
has written. The spec says only that the contents at power-on are "whatever the host loaded" (R43). -/
def Config.unloadedWord : Word := 0

/-- DESIGN CHOICE (unsafe, log entry 10): the devices' state at power-on. The spec gives none; the free
functions above take it as an argument, so no statement rests on the number. -/
def Config.deviceAtReset : Nat := 0

end Sys2Proof
end

