-- ==== Sys2Proof/Machine/State.lean ====
section
/-! DEFINITION. The state of the machine (spec/10_state.md), the reasons a step stops, and the state
after power-on reset (R36, R138). -/

namespace Sys2Proof.Machine

/-- The contents of the memory behind fetch, LOAD and STORE (spec/20_memory.md R43): pairs of a word
address (the address's 32-bit pattern as a number) and the word there. The word is the smallest
addressable unit: "No byte or half-word address exists" (R45). An address not listed reads as
`Config.unloadedWord`. -/
abbrev Memory := List (Nat × Word)

/-- The one canonical form of a memory: addresses strictly rising and within 32 bits, no entry equal
to what an unlisted address reads as. -/
abbrev Memory.wf (m : Memory) : Prop :=
  m.Pairwise (fun c d => c.1 < d.1) ∧ ∀ c ∈ m, c.1 < 2 ^ 32 ∧ c.2 ≠ Config.unloadedWord

/-- What an access is for (R49, R50). -/
inductive AccessKind where
  | fetch
  | load
  | store
deriving DecidableEq, Repr

/-- One access the CORE made to the memory (R50): what for, where, and the word read or written. -/
structure Access where
  kind : AccessKind
  addr : Word
  word : Word
deriving DecidableEq, Repr

/-- The state of the CPU as a trace observer reads it (spec/41_step.md R96: "the event carries the
state read-only"). -/
structure CoreView where
  regs : Vector Word 16
  cond : Flag
  halted : Bool
deriving DecidableEq, Repr

/-- One trace event (R96): the fetch address, the raw word, the decoded instruction, the state before
execution, and the observers it is delivered to in registration order. -/
structure TraceEvent where
  addr : Word
  word : Word
  instr : Instr
  subject : CoreView
  listeners : List Nat
deriving DecidableEq, Repr

/-- The state: the CORE's four pieces (R18), the memory collaborator's parameter `Mem` (R43), the
registered observers (R110), and the two output streams a host can see, the trace (R35, R96) and
the accesses made to the memory (R50). The memory's contents, its admitted ranges and the state of the
devices behind it are the changing parts of `Mem`. Plain data throughout. -/
structure State where
  /-- The register file, `x[0]` to `x[15]` (R20); `x[15]` is the program counter (R26). Read and
  written only through `readReg` and `writeReg`. -/
  regs : Vector Word 16
  /-- Which registers have had a value since power-on (R36, R40). `x[0]` always has. -/
  written : Vector Bool 16
  /-- The current condition (R27): one of four flags, so one-hot by construction. -/
  cond : Flag
  /-- The halted flag (R30): true is HALTED, false is RUNNING (R31). -/
  halted : Bool
  /-- `Mem.word` (R43). -/
  mem : Memory
  /-- `Mem.valid` (R43): the ranges the memory admits. No step and no host command changes them. -/
  regions : List Region
  /-- The state of the devices behind memory, part of `Mem` (R43, R50): a number that only
  `Params.device` gives a meaning to (log entry 10). Only an access to a device changes it. -/
  device : Nat
  /-- The registered trace observers, by number, in registration order (R110). -/
  observers : List Nat
  /-- The trace event stream (R35, R96), the latest event first. -/
  trace : List TraceEvent
  /-- The accesses made to the memory (R50), the latest first. -/
  bus : List Access
deriving DecidableEq, Repr

/-- Where the spec gives a step no meaning because of where it accesses memory. `ModelFault` of
spec/60_exceptions.md R125; the arithmetic fault (R124) is not one of these: it is a next state. -/
inductive Fault where
  /-- Raised by a fetch, a LOAD read, a STORE write or a host access at an address the memory does
  not admit (R46). Safe: the model stops and invents nothing. -/
  | memoryRange (a : Word)
deriving DecidableEq, Repr

/-- What the model gives no meaning to. -/
inductive Refusal where
  /-- An instruction whose meaning is not written yet, by its mnemonic. Safe. -/
  | notModelled (mnemonic : String)
  /-- Raised by a host command given while the CORE is RUNNING: "no move in the model"
  (spec/41_step.md R110, spec/93_implementation_defined.md I6). Safe for what the model shows. -/
  | hostWhileRunning
deriving DecidableEq, Repr

/-- The state at power-on (R36, R138), for any value of the parameters the spec leaves OPEN:
`INIT_REGS` and `INIT_CONDITION`, and the memory and devices the platform brings. HALTED, waiting for
`start`. -/
def State.powerOn (initRegs : Reg → Word) (initCondition : Flag) (regions : List Region)
    (mem : Memory) (device : Nat) : State :=
  { regs := Vector.ofFn fun i => if i = 0 then 0 else initRegs i
    written := Vector.ofFn fun i : Reg => decide (i = 0)
    cond := initCondition
    halted := true
    mem := mem
    regions := regions
    device := device
    observers := []
    trace := []
    bus := [] }

/-- The machine right after reset: `powerOn` at the values Config names (log entries 1 to 4 and 10),
memory with nothing listed. -/
def State.reset : State :=
  State.powerOn Config.initRegs Config.initCondition Config.platform [] Config.deviceAtReset

end Sys2Proof.Machine
end

