-- ==== Sys2Proof/Machine/Flags.lean ====
section
/-! DEFINITION. The condition flags: their bits, the condition test, the flag of a result
(spec/30_encoding.md R64, spec/41_step.md R97, spec/40_alu.md R82). -/

namespace Sys2Proof.Machine

/-- The one-hot pattern `cond` is held as (R27, R64). -/
def flagBits : Flag → BitVec 4
  | .m => 0b0001
  | .z => 0b0010
  | .p => 0b0100
  | .v => 0b1000

/-- The condition test (R97): `(cond & mask) ≠ 0`. -/
def passes (cond : Flag) (mask : Mask) : Bool := (flagBits cond &&& mask) != 0

/-- `flagOf` (R82): the flag of a word result that is no fault. -/
def flagOf (v : Word) : Flag :=
  if v = 0 then .z else if v.toInt < 0 then .m else .p

end Sys2Proof.Machine
end

