-- ==== Sys2Proof/Machine/Alu.lean ====
section
/-! DEFINITION. The arithmetic unit (spec/40_alu.md R78 to R92). -/

namespace Sys2Proof.Machine

/-- A fault result (R92): the word 0 with flag V. -/
def faultResult : Word × Flag := (0, .v)

/-- Bringing a mathematical value back to a word with its flag, under the overflow policy (R84). -/
def settle (policy : OverflowPolicy) (e : Int) : Word × Flag :=
  if policy = .fault ∧ inWordRange e = false then faultResult
  else (wrap e, flagOf (wrap e))

/-- The whole ALU (R91). The values are those of R80; `fdiv` rounds toward minus infinity (R17). -/
def alu (policy : OverflowPolicy) (op : Opcode) (left right : Word) : Word × Flag :=
  match op with
  | .halt => (0, .z)
  | .invalid => faultResult
  | .div =>
    if right = 0 then faultResult else settle policy (Int.fdiv left.toInt right.toInt)
  | .add => settle policy (left.toInt + right.toInt)
  | .sub => settle policy (left.toInt - right.toInt)
  | .mul => settle policy (left.toInt * right.toInt)
  | .load => settle policy (left.toInt + right.toInt)
  | .store => settle policy (left.toInt + right.toInt)

end Sys2Proof.Machine
end

