-- ==== Sys2Proof/Machine/Ops.lean ====
section
/-! DEFINITION. The named operations over registers, memory, the condition, the output streams and
the program counter; the arithmetic fault and the start that follows it; the fetch-decode-trace
part of a step (spec/10_state.md, 20_memory.md, 41_step.md, 60_exceptions.md). -/

namespace Sys2Proof.Machine

/-- What a step, a meaning or a host command answers. -/
abbrev Outcome := Host.Outcome State Fault Refusal

/-- The parameter values of this hardware (R9, decisions D2 and D7); its devices are free (log entry 10). -/
def hardware : Params := { overflow := .wrap, pcOrder := .writeWins, device := Config.device }

/-! ### Registers (R20 to R26) -/

/-- `get` of the register file (R21, R22): register 0 reads 0. -/
def readReg (i : Reg) (s : State) : Word := if i = 0 then 0 else s.regs[i]

/-- The register cells after `put` (R21, R22): a write to register 0 has no effect. -/
def putCell (i : Reg) (v : Word) (regs : Vector Word 16) : Vector Word 16 :=
  if i = 0 then regs else regs.set i v

/-- The record of which registers hold a value, after a write to register `i` (R40). -/
def markWritten (i : Reg) (written : Vector Bool 16) : Vector Bool 16 :=
  if i = 0 then written else written.set i true

/-- `put` of the register file (R24). -/
def writeReg (i : Reg) (v : Word) (s : State) : State :=
  { s with regs := putCell i v s.regs, written := markWritten i s.written }

/-- Whether a register has had a value since power-on (R36, R40): register 0 always has. -/
def isWritten (i : Reg) (s : State) : Bool := i == 0 || s.written[i]

/-- The program counter (R26). -/
def pcOf (s : State) : Word := readReg pcReg s

/-- The address of the next word (R26, decision D16): `wrap(A + 1)` under every overflow policy. -/
def nextAddr (a : Word) : Word := wrap (a.toInt + 1)

/-! ### Memory (R42 to R50) -/

/-- `Mem.word` (R43). -/
def Memory.read : Memory → Nat → Word
  | [], _ => Config.unloadedWord
  | c :: m, a => if c.1 = a then c.2 else Memory.read m a

/-- The entry that makes address `a` read as `v`: none for the word an unlisted address reads as. -/
def Memory.cell (a : Nat) (v : Word) : Memory :=
  if v = Config.unloadedWord then [] else [(a, v)]

/-- `Mem.word(a) <- v` (R43), keeping the canonical form. -/
def Memory.write (m : Memory) (a : Nat) (v : Word) : Memory :=
  m.filter (fun c => decide (c.1 < a)) ++ Memory.cell a v ++ m.filter (fun c => decide (a < c.1))

/-- The word at a word address. -/
def readWord (a : Word) (s : State) : Word := s.mem.read a.toNat

/-- The state with a word stored at a word address (R47: the pattern stored is the word's own). -/
def storeWord (a v : Word) (s : State) : State := { s with mem := s.mem.write a.toNat v }

/-- What stands behind an address: the kind of the first admitted range that holds it, none where
`Mem.valid` is false (R43). Addresses are signed and handed over as they are (R44). -/
def kindAt (a : Word) : List Region → Option RegionKind
  | [] => none
  | r :: rs => if r.lo ≤ a.toInt ∧ a.toInt ≤ r.hi then some r.kind else kindAt a rs

/-- Whether an address is plain storage, where reads and writes are those of R43. -/
def isStorage (a : Word) (s : State) : Bool := kindAt a s.regions == some .storage

/-- Make one access at `a`, and go on with `k` where the memory admits it (R43), as storage or as a
device. Not admitted: the model fault of R46. No alignment applies (R48). -/
def access (a : Word) (s : State) (k : Outcome) : Outcome :=
  match kindAt a s.regions with
  | none => .fault (.memoryRange a)
  | some .storage => k
  | some .device => k

/-- The contents after some words were set one after another, the first of the list first. -/
def Memory.applyChanges : List (Word × Word) → Memory → Memory
  | [], m => m
  | c :: cs, m => Memory.applyChanges cs (m.write c.1.toNat c.2)

/-- `MemRead(a, 1)` (R43, R50): storage answers `Mem.word(a)` and changes nothing; a device does what the
device behaviour of `Mem` says. -/
def memRead (c : Params) (a : Word) (s : State) : MemAnswer :=
  if isStorage a s then { word := readWord a s, state := s.device, changes := [] }
  else c.device.read s.device a (readWord a s)

/-- `MemWrite(a, 1, v)` (R43, R50): storage takes the word and changes nothing else; a device does what
the device behaviour of `Mem` says. -/
def memWrite (c : Params) (a v : Word) (s : State) : MemAnswer :=
  if isStorage a s then { word := v, state := s.device, changes := [(a, v)] }
  else c.device.write s.device a v

/-- The effect of an access on the memory: the words set, and the devices' new state. -/
def takeEffect (d : MemAnswer) (s : State) : State :=
  { s with mem := Memory.applyChanges d.changes s.mem, device := d.state }

/-- The word a read at `a` answers. -/
def wordRead (c : Params) (a : Word) (s : State) : Word := (memRead c a s).word

/-- The state after a read at `a`. -/
def afterRead (c : Params) (a : Word) (s : State) : State := takeEffect (memRead c a s) s

/-- The state after a write of `v` at `a`. -/
def afterWrite (c : Params) (a v : Word) (s : State) : State := takeEffect (memWrite c a v s) s

/-- Record an access the CORE made (R50). -/
def logAccess (kind : AccessKind) (a v : Word) (s : State) : State :=
  { s with bus := { kind := kind, addr := a, word := v } :: s.bus }

/-! ### The condition, the arithmetic fault, HALT and `start` (R27 to R31, R101, R109, R128) -/

/-- Entry into the arithmetic fault, the only exception (R124, R128): nothing is saved and no handler
is entered; `cond` becomes V and the CORE halts. The step's own effects and the advance of the
program counter still follow. -/
def takeFault (s : State) : State := { s with cond := .v, halted := true }

/-- `cond <- f`, and the fault entry when `f` is V (R101). -/
def recordFlag (f : Flag) (s : State) : State :=
  if f = .v then takeFault s else { s with cond := f }

/-- HALT's own effect: `halted <- true` (R102). -/
def enterHalted (s : State) : State := { s with halted := true }

/-- `start(from_addr)` (R37, R109), the only way out of HALTED, after a fault too (R129): it clears
`halted` and sets the program counter, and keeps `cond`. -/
def startAt (fromAddr : Word) (s : State) : State :=
  { writeReg pcReg fromAddr s with halted := false }

/-! ### The condition test and the advance of the program counter (R97, R98, R104, R105) -/

/-- A skip (R98): only the program counter changes. -/
def skip (s : State) : State := writeReg pcReg (nextAddr (pcOf s)) s

/-- The condition test around an instruction's effect (R97, R98). -/
def conditional (f : Fields) (s : State) (k : Outcome) : Outcome :=
  if passes s.cond f.mask then k else .next (skip s)

/-- The part of the advance before the dispatch: none, except under `advance_before_writeback` (R105). -/
def preAdvance (c : Params) (a : Word) (s : State) : State :=
  match c.pcOrder with
  | .advanceBeforeWriteback => writeReg pcReg (nextAddr a) s
  | .writeWins => s
  | .incrementAfterWrite => s
  | .advanceOverrides => s

/-- The advance after the dispatch (R104, R105); `a` is the fetch address, `wrote15` whether the
dispatch wrote r15. -/
def postAdvance (c : Params) (a : Word) (wrote15 : Bool) (s : State) : State :=
  match c.pcOrder with
  | .writeWins => if wrote15 then s else writeReg pcReg (nextAddr a) s
  | .incrementAfterWrite => writeReg pcReg (nextAddr (pcOf s)) s
  | .advanceOverrides => writeReg pcReg (nextAddr a) s
  | .advanceBeforeWriteback => s

/-! ### Fetch, decode and trace (R94 to R96) -/

/-- The state as an observer reads it (R96). -/
def viewOf (s : State) : CoreView := { regs := s.regs, cond := s.cond, halted := s.halted }

/-- `emit Trace(A, w, I)` (R96), delivered to the registered observers in registration order. -/
def emitTrace (a w : Word) (i : Instr) (s : State) : State :=
  { s with
    trace := { addr := a, word := w, instr := i, subject := viewOf s, listeners := s.observers }
      :: s.trace }

/-- The word the next step fetches (R94). -/
def fetchWord (c : Params) (s : State) : Word := wordRead c (pcOf s) s

/-- The state in which the fetched word's instruction is executed: the fetch made, with its side effects
if it reads a device (R50), and the trace event emitted (R96). -/
def afterTrace (c : Params) (s : State) : State :=
  emitTrace (pcOf s) (fetchWord c s) (decode (fetchWord c s))
    (logAccess .fetch (pcOf s) (fetchWord c s) (afterRead c (pcOf s) s))

/-- One move of the CORE under the parameters `c`, `ex` being what an instruction does (R106). In HALTED
it takes no step and nothing changes (R108): the CORE idles until the host issues `start`. -/
def cycle (c : Params) (ex : Instr → State → Outcome) (s : State) : Outcome :=
  if s.halted then .next s
  else access (pcOf s) s (ex (decode (fetchWord c s)) (afterTrace c s))

end Sys2Proof.Machine
end

