-- ==== Sys2Proof/Machine/Operands.lean ====
section
/-! DEFINITION. The operands of an executed instruction and the ALU call on them (spec/41_step.md R99
to R101, R106). -/

namespace Sys2Proof.Machine

/-- `formRight` (R100, R106): the right operand, and whether forming it overflowed under the policy
`fault`. -/
def formRight (policy : OverflowPolicy) (b : Word) (off : Offset) : Word × Bool :=
  if policy = .fault ∧ inWordRange (b.toInt + off.toInt) = false then (0, true)
  else (wrap (b.toInt + off.toInt), false)

/-- The ALU outcome of an executed instruction (R99, R101, R106): a result and a flag. Both source
registers are read before any write of the step; a read of r15 gives the fetch address. For LOAD
and STORE the result is the effective address (R88), which no alignment rule limits (R48). -/
def compute (c : Params) (op : Opcode) (f : Fields) (s : State) : Word × Flag :=
  if (formRight c.overflow (readReg f.s2 s) f.off).2 then faultResult
  else alu c.overflow op (readReg f.s1 s) (formRight c.overflow (readReg f.s2 s) f.off).1

end Sys2Proof.Machine
end

