-- ==== Sys2Proof/Machine/Arithmetic.lean ====
section
/-! DEFINITION. ADD, SUB, MUL and DIV (spec/42_arithmetic.md R113 to R116). -/

namespace Sys2Proof.Machine

/-- The shape the four share (R103, R106): the result goes to the target, 0 after a fault too. -/
def arith (c : Params) (op : Opcode) (f : Fields) (s : State) : Outcome :=
  conditional f s <|
    .next <| postAdvance c (pcOf s) (f.t == pcReg) <|
      writeReg f.t (compute c op f s).1 <|
        preAdvance c (pcOf s) (recordFlag (compute c op f s).2 s)

/-- ADD (R113). -/
def execAdd (f : Fields) (s : State) : Outcome := arith hardware .add f s

/-- SUB (R114): the offset is added to `x[s2]` before the subtraction. -/
def execSub (f : Fields) (s : State) : Outcome := arith hardware .sub f s

/-- MUL (R115): the low 32 bits of the product. -/
def execMul (f : Fields) (s : State) : Outcome := arith hardware .mul f s

/-- DIV (R116): floor division; a zero divisor takes the arithmetic fault and writes 0. -/
def execDiv (f : Fields) (s : State) : Outcome := arith hardware .div f s

end Sys2Proof.Machine
end

