-- ==== Sys2Proof/Machine/Control.lean ====
section
/-! DEFINITION. HALT and INVALID (spec/44_halt_control.md R119, R121). There are no other control
instructions: a jump is a write to r15 (R122). -/

namespace Sys2Proof.Machine

/-- HALT under any parameters (R102, R106, R119): no register or memory write but the advance. -/
def haltOp (c : Params) (f : Fields) (s : State) : Outcome :=
  conditional f s <|
    .next <| postAdvance c (pcOf s) false <|
      enterHalted <| preAdvance c (pcOf s) (recordFlag (compute c .halt f s).2 s)

/-- INVALID under any parameters (R103, R106, R121): the arithmetic fault and the advance, no other
register or memory write. -/
def invalidOp (c : Params) (f : Fields) (s : State) : Outcome :=
  conditional f s <|
    .next <| postAdvance c (pcOf s) false <|
      preAdvance c (pcOf s) (recordFlag (compute c .invalid f s).2 s)

/-- HALT (R119). -/
def execHalt (f : Fields) (s : State) : Outcome := haltOp hardware f s

/-- INVALID with opcode 7 (R121). -/
def execInvalid7 (f : Fields) (s : State) : Outcome := invalidOp hardware f s

/-- INVALID with opcode 8 to 15 (R121). -/
def execInvalidHigh (f : Fields) (s : State) : Outcome := invalidOp hardware f s

end Sys2Proof.Machine
end

