-- ==== Sys2Proof/Machine/LoadStore.lean ====
section
/-! DEFINITION. LOAD and STORE (spec/43_load_store.md R117, R118). -/

namespace Sys2Proof.Machine

/-- LOAD under any parameters (R106, R117). The read is made, with the side effects it has, even when
the target is r0 (R50). -/
def loadOp (c : Params) (f : Fields) (s : State) : Outcome :=
  conditional f s <|
    access (compute c .load f s).1 s <|
      .next <| postAdvance c (pcOf s) (f.t == pcReg) <|
        writeReg f.t (wordRead c (compute c .load f s).1 s) <|
          logAccess .load (compute c .load f s).1 (wordRead c (compute c .load f s).1 s) <|
            afterRead c (compute c .load f s).1 <|
              preAdvance c (pcOf s) (recordFlag (compute c .load f s).2 s)

/-- The word a STORE stores (R118): `x[t]` read before any write of the step, but after the advance
under `advance_before_writeback` (R105). -/
def storeData (c : Params) (f : Fields) (s : State) : Word :=
  readReg f.t (preAdvance c (pcOf s) s)

/-- STORE under any parameters (R106, R118). It never writes a register but r15. -/
def storeOp (c : Params) (f : Fields) (s : State) : Outcome :=
  conditional f s <|
    access (compute c .store f s).1 s <|
      .next <| postAdvance c (pcOf s) false <|
        logAccess .store (compute c .store f s).1 (storeData c f s) <|
          afterWrite c (compute c .store f s).1 (storeData c f s) <|
            preAdvance c (pcOf s) (recordFlag (compute c .store f s).2 s)

/-- LOAD (R117): `cond` is the flag of the address, not of the data. -/
def execLoad (f : Fields) (s : State) : Outcome := loadOp hardware f s

/-- STORE (R118). -/
def execStore (f : Fields) (s : State) : Outcome := storeOp hardware f s

end Sys2Proof.Machine
end

