-- ==== Sys2Proof/Machine/HostPort.lean ====
section
/-! DEFINITION. What the host can do to the CORE (spec/41_step.md R110): everything only while HALTED. -/

namespace Sys2Proof.Machine

/-- The host's commands that may change something (R110). -/
inductive HostCommand where
  /-- Load a word into memory. -/
  | loadWord (a v : Word)
  /-- Register a trace observer, by number. -/
  | addObserver (n : Nat)
  /-- Remove a trace observer. -/
  | removeObserver (n : Nat)
  /-- `start(from_addr)` (R109). -/
  | start (fromAddr : Word)
deriving DecidableEq, Repr

/-- What the host can read (R35, R110). -/
inductive HostQuery where
  | word (a : Word)
  | register (i : Reg)
  | condition
  | halted
deriving DecidableEq, Repr

/-- The answer to a query. -/
inductive HostReply where
  | word (v : Word)
  | flag (f : Flag)
  | bool (b : Bool)
deriving DecidableEq, Repr

/-- The host acts only while the CORE is HALTED; nothing else has a move in the model (R110). -/
def whileHalted (s : State) (k : Outcome) : Outcome :=
  if s.halted then k else .refused .hostWhileRunning

/-- Register an observer after those already registered (R96, R110). -/
def addObserver (n : Nat) (s : State) : State := { s with observers := s.observers ++ [n] }

/-- Remove an observer (R110). -/
def removeObserver (n : Nat) (s : State) : State :=
  { s with observers := s.observers.filter (fun k => k != n) }

/-- A host command (R58, R109, R110). The host's own memory accesses are none of the CORE's: they are not
recorded on `bus`, and they set or read `Mem.word` itself (R110), with no side effect of a device. -/
def hostCommand (c : HostCommand) (s : State) : Outcome :=
  whileHalted s <|
    match c with
    | .loadWord a v => access a s (.next (storeWord a v s))
    | .addObserver n => .next (addObserver n s)
    | .removeObserver n => .next (removeObserver n s)
    | .start fromAddr => .next (startAt fromAddr s)

/-- A host read (R35, R110): it changes nothing, and answers only while the CORE is HALTED. -/
def hostQuery (q : HostQuery) (s : State) : Option HostReply :=
  if s.halted then
    match q with
    | .word a => if (kindAt a s.regions).isSome then some (.word (readWord a s)) else none
    | .register i => some (.word (readReg i s))
    | .condition => some (.flag s.cond)
    | .halted => some (.bool s.halted)
  else none

/-- The state with one address made plain storage, unchanged where it is already. -/
def ensureStorage (a : Word) (s : State) : State :=
  if isStorage a s then s
  else { s with regions := { lo := a.toInt, hi := a.toInt, kind := .storage } :: s.regions }

/-- The word of `nbits` bits placed at the program counter, and the run started there (R141). -/
def placeAndStart (nbits w : Nat) (s : State) : State :=
  startAt (pcOf s)
    (storeWord (pcOf s) (BitVec.ofNat 32 (w % 2 ^ nbits)) (ensureStorage (pcOf s) s))

end Sys2Proof.Machine
end

