-- ==== Sys2Proof/Machine/Step.lean ====
section
/-! DEFINITION. One step (spec/41_step.md R106, R108), and the host's placing of one instruction. -/

namespace Sys2Proof.Machine

/-- One step of the machine: fetch, decode and trace, then what the instruction does (R106). -/
def step (s : State) : Host.Outcome State Fault Refusal := cycle hardware exec s

/-- The state with the instruction `w` placed where the next step fetches, and the run started there:
what the host does with one memory load and one `start` (R110, R141; log entry 9). -/
def State.withFetchWord (s : State) (nbits w : Nat) : State := placeAndStart nbits w s

end Sys2Proof.Machine
end

