-- ==== Sys2Proof/Machine/Parametric.lean ====
section
/-! DEFINITION. The instructions under any value of the parameters OVERFLOW_POLICY and PC_ORDER and any
device behaviour (spec/00_scope.md R9: "A model takes the parameters marked OPEN as arguments";
20_memory.md R50). The hardware's own values are `hardware`; its meanings are those of Sys2Proof/Machine/Dispatch.lean. -/

namespace Sys2Proof.Machine

/-- What an instruction does under the parameters `c` (R84, R105, R106). -/
def execUnder (c : Params) (i : Instr) (s : State) : Outcome :=
  match i with
  | .halt f => haltOp c f s
  | .load f => loadOp c f s
  | .store f => storeOp c f s
  | .add f => arith c .add f s
  | .sub f => arith c .sub f s
  | .mul f => arith c .mul f s
  | .div f => arith c .div f s
  | .invalid7 f => invalidOp c f s
  | .invalidHigh f => invalidOp c f s

/-- One step under the parameters `c` (R106). -/
def stepUnder (c : Params) (s : State) : Outcome := cycle c (execUnder c) s

end Sys2Proof.Machine
end

