-- ==== Sys2Proof/Machine/Pseudo.lean ====
section
/-! DEFINITION. The pseudo-instructions (spec/30_encoding.md R76): each is one instruction. -/

namespace Sys2Proof.Machine

/-- The pseudo-instructions of R76. The jump forms carry a mask; `target` is the address of the
label, and the offset is taken from it. -/
inductive Pseudo where
  | nop
  | li (t : Reg) (imm : Offset)
  | move (t s : Reg)
  | cmp (a b : Reg)
  | cmpi (a : Reg) (imm : Offset)
  | jump (mask : Mask) (target : Word)
  | jumpa (mask : Mask) (addr : Offset)
  | jumpr (mask : Mask) (s : Reg)
  | loada (t : Reg) (addr : Offset)
  | storea (t : Reg) (addr : Offset)
deriving DecidableEq, Repr

/-- A signed number as an offset, if it is in -2048 to 2047 (R63, R74). -/
def offsetOf (e : Int) : Option Offset :=
  if -2048 ≤ e ∧ e ≤ 2047 then some (BitVec.ofInt 12 e) else none

/-- The expansion (R76) of a pseudo-instruction that stands at address `a`; none for a JUMP whose
label is out of reach. -/
def expandPseudo (a : Word) : Pseudo → Option Instr
  | .nop => some (.halt { mask := Mask.never, t := 0, s1 := 0, s2 := 0, off := 0 })
  | .li t imm => some (.add { mask := Mask.always, t := t, s1 := 0, s2 := 0, off := imm })
  | .move t s => some (.add { mask := Mask.always, t := t, s1 := s, s2 := 0, off := 0 })
  | .cmp x y => some (.sub { mask := Mask.always, t := 0, s1 := x, s2 := y, off := 0 })
  | .cmpi x imm => some (.sub { mask := Mask.always, t := 0, s1 := x, s2 := 0, off := imm })
  | .jump mask target =>
    (offsetOf (target.toInt - a.toInt)).map fun off =>
      .add { mask := mask, t := pcReg, s1 := 0, s2 := pcReg, off := off }
  | .jumpa mask addr => some (.add { mask := mask, t := pcReg, s1 := 0, s2 := 0, off := addr })
  | .jumpr mask s => some (.add { mask := mask, t := pcReg, s1 := s, s2 := 0, off := 0 })
  | .loada t addr => some (.load { mask := Mask.always, t := t, s1 := 0, s2 := 0, off := addr })
  | .storea t addr => some (.store { mask := Mask.always, t := t, s1 := 0, s2 := 0, off := addr })

end Sys2Proof.Machine
end

