-- ==== Sys2Proof/Machine/Run.lean ====
section
/-! DEFINITION. A run (spec/41_step.md R109, R111): the steps from a `start` until `halted`, under fuel. -/

namespace Sys2Proof.Machine

/-- What is known of a run after some steps (R111, spec/93_implementation_defined.md I15). -/
inductive RunResult where
  /-- The run has ended: the CORE is HALTED, and this is its final state. -/
  | ended (s : State)
  /-- The run has not ended within the fuel; it may never end. -/
  | unfinished (s : State)
  /-- The run reached a model fault: it has no meaning and no end state. -/
  | faulted (r : Fault)
  /-- The run reached something the model refuses. -/
  | refused (r : Refusal)
deriving DecidableEq, Repr

/-- Step until `halted`, at most `fuel` times (R109, R111). -/
def runFor : Nat → State → RunResult
  | 0, s => if s.halted then .ended s else .unfinished s
  | k + 1, s =>
    if s.halted then .ended s
    else
      match step s with
      | .next t => runFor k t
      | .fault r => .faulted r
      | .refused r => .refused r

end Sys2Proof.Machine
end

