-- ==== Sys2Proof/Safety.lean ====
section
/-! DEFINITION. The invariant of the machine, and what counts as a step or run the spec gives a
meaning to (spec/10_state.md R40, R41; spec/60_exceptions.md R125; spec/70_reset_and_hazards.md R142). -/

namespace Sys2Proof.Machine

/-- The invariant (R41): the cell behind the zero register holds 0 and counts as written (R40), and
the memory has its canonical form. That `cond` is one of four flags and that registers hold words
is in their types. -/
abbrev Inv (s : State) : Prop :=
  s.regs[(0 : Reg)] = 0 ∧ s.written[(0 : Reg)] = true ∧ s.mem.wf

/-- The registers an executed instruction reads as operands or data, in the order of the step (R24). -/
def registersRead (i : Instr) : List Reg :=
  match i with
  | .store f => [f.s1, f.s2, f.t]
  | .halt f => [f.s1, f.s2]
  | .load f => [f.s1, f.s2]
  | .add f => [f.s1, f.s2]
  | .sub f => [f.s1, f.s2]
  | .mul f => [f.s1, f.s2]
  | .div f => [f.s1, f.s2]
  | .invalid7 f => [f.s1, f.s2]
  | .invalidHigh f => [f.s1, f.s2]

/-- The register for which the spec names `ModelFault(UnwrittenRegister(i))` when this instruction
runs (R40, R127): the first one read that has had no value since power-on, if the instruction is
not skipped. The model goes on with `INIT_REGS` there (log entry 1). -/
def unwrittenRead (i : Instr) (s : State) : Option Reg :=
  if passes s.cond i.fields.mask then
    (registersRead i).find? (fun r => !isWritten r s)
  else none

/-- Whether the next step has a meaning without `INIT_REGS`: no register read before it is written
(R142). A claim that assumes this at every step does not rest on log entry 1. -/
def readsOnlyWritten (s : State) : Bool :=
  s.halted || (unwrittenRead (decode (fetchWord hardware s)) s).isNone

/-- Whether an executed instruction's values stay in the word range, so that the overflow policy does
not matter (R84, R100; decision D2 asks claims to say so). -/
def noOverflow (op : Opcode) (left b : Word) (off : Offset) : Bool :=
  inWordRange (b.toInt + off.toInt) &&
    match op with
    | .halt => true
    | .invalid => true
    | .div => inWordRange (Int.fdiv left.toInt (b.toInt + off.toInt))
    | .sub => inWordRange (left.toInt - (b.toInt + off.toInt))
    | .mul => inWordRange (left.toInt * (b.toInt + off.toInt))
    | .add => inWordRange (left.toInt + (b.toInt + off.toInt))
    | .load => inWordRange (left.toInt + (b.toInt + off.toInt))
    | .store => inWordRange (left.toInt + (b.toInt + off.toInt))

/-- A safe step: it answers a next state, so it reaches no `ModelFault` of R125. -/
def safeStep (s : State) : Bool :=
  match step s with
  | .next _ => true
  | .fault _ => false
  | .refused _ => false

end Sys2Proof.Machine
end

