-- ==== Sys2Proof/Certificates/Slice0/Obligations.lean ====
section
/-! DEFINITION. The statements for the provers, and the words they are said in. -/

namespace Sys2Proof.Claims

open Sys2Proof.Machine

/-! ### Values, written from the spec's formulas and not from the model's operations -/

/-- Whether a mathematical integer is in the word range (spec/00_scope.md R12). -/
abbrev Fits (e : Int) : Prop := -2147483648 ≤ e ∧ e ≤ 2147483647

/-- The value of the left operand, `x[s1]` (R99). -/
def leftOf (f : Fields) (s : State) : Int := (readReg f.s1 s).toInt

/-- The exact value `x[s2] + off`, before it is brought back to a word (R99, R100). -/
def rightOf (f : Fields) (s : State) : Int := (readReg f.s2 s).toInt + f.off.toInt

/-- The effective address of LOAD and STORE, `wrap(x[s1] + x[s2] + off)` (R88). -/
def ea (f : Fields) (s : State) : Word := wrap (leftOf f s + rightOf f s)

/-- The mathematical value of an operation (R80); none where the operation has none: a zero divisor,
and INVALID. -/
def exactValue (op : Opcode) (left right : Word) : Option Int :=
  match op with
  | .add => some (left.toInt + right.toInt)
  | .sub => some (left.toInt - right.toInt)
  | .mul => some (left.toInt * right.toInt)
  | .div => if right = 0 then none else some (Int.fdiv left.toInt right.toInt)
  | .load => some (left.toInt + right.toInt)
  | .store => some (left.toInt + right.toInt)
  | .halt => some 0
  | .invalid => none

/-- The ALU's answer for an executed instruction of this hardware (R99 to R101). -/
def aluOf (i : Instr) (s : State) : Word × Flag :=
  alu .wrap i.op (readReg i.fields.s1 s) (wrap (rightOf i.fields s))

/-- The word an executed instruction writes into its target (R103): none for STORE, HALT, INVALID. -/
def targetValue (i : Instr) (s : State) : Option Word :=
  match i with
  | .load f => some (wordRead hardware (ea f s) s)
  | .add _ => some (aluOf i s).1
  | .sub _ => some (aluOf i s).1
  | .mul _ => some (aluOf i s).1
  | .div _ => some (aluOf i s).1
  | .store _ => none
  | .halt _ => none
  | .invalid7 _ => none
  | .invalidHigh _ => none

/-- The instruction the next step fetches (R94, R95). -/
def fetched (s : State) : Instr := decode (wordRead hardware (readReg 15 s) s)

/-- The parameters with the OPEN overflow policy `fault` (R9, R84). -/
def faulting : Params := { overflow := .fault, pcOrder := .writeWins }

/-- This hardware's parameters with any device behaviour in the parameter `Mem` (R43, R50). -/
def withDevices (d : DeviceBehaviour) : Params := { overflow := .wrap, pcOrder := .writeWins, device := d }

/-- The word an address holds after some words were set one after another: the last one set there. -/
def lastSet (a : Word) : List (Word × Word) → Word → Word
  | [], w => w
  | c :: cs, w => lastSet a cs (if c.1 = a then c.2 else w)

/-! ### What is unchanged -/

/-- Every register outside `rs` holds what it held, and counts as written if it did. -/
def RegsUnchangedBut (rs : List Reg) (s t : State) : Prop :=
  ∀ r : Reg, r ∉ rs → readReg r t = readReg r s ∧ isWritten r t = isWritten r s

/-- Every word of memory reads as before, and the devices' state is as before. -/
def MemoryUnchanged (s t : State) : Prop :=
  (∀ a : Word, readWord a t = readWord a s) ∧ t.device = s.device

/-- The one word `v` was stored at `x`: every other word, and the devices' state, are as before. -/
def OnlyStored (x v : Word) (s t : State) : Prop :=
  (∀ a : Word, readWord a t = if a = x then v else readWord a s) ∧ t.device = s.device

/-- The memory is as a device's answer to an access leaves it: the devices in the state it gives, the
words it sets changed, every other word as before. -/
def DeviceActed (d : MemAnswer) (s t : State) : Prop :=
  t.device = d.state ∧ ∀ a : Word, readWord a t = lastSet a d.changes (readWord a s)

/-- The admitted ranges, the observers and the trace are as before. -/
def RestUnchanged (s t : State) : Prop :=
  t.regions = s.regions ∧ t.observers = s.observers ∧ t.trace = s.trace

/-- An instruction wrote `v` into its target, set the flag `fl`, and halted if `halts`; nothing else
changed but memory and the access record, of which this says nothing. A target of r0 discards the
write (R21); a target of r15 is a jump (R104). -/
def TargetWritten (f : Fields) (v : Word) (fl : Flag) (halts : Bool) (s t : State) : Prop :=
  readReg f.t t = (if f.t = 0 then 0 else v) ∧
  readReg 15 t = (if f.t = 15 then v else wrap ((readReg 15 s).toInt + 1)) ∧
  t.cond = fl ∧ t.halted = (s.halted || halts) ∧
  isWritten f.t t = true ∧ isWritten 15 t = true ∧
  RegsUnchangedBut [f.t, 15] s t ∧ RestUnchanged s t

/-- An instruction set the flag `fl`, halted if `halts` and advanced the program counter; nothing else
changed but memory and the access record, of which this says nothing. -/
def OnlyAdvanced (fl : Flag) (halts : Bool) (s t : State) : Prop :=
  readReg 15 t = wrap ((readReg 15 s).toInt + 1) ∧
  t.cond = fl ∧ t.halted = (s.halted || halts) ∧ isWritten 15 t = true ∧
  RegsUnchangedBut [15] s t ∧ RestUnchanged s t

/-! ### Shapes the instruction statements share -/

/-- The words with opcode number `n` in bits 31:28, and no others, decode to this instruction, with the
fields of the word. -/
def EncodedWithOpcode (n : Nat) (mk : Fields → Instr) : Prop :=
  ∀ w : Word, decode w = mk (fieldsOf w) ↔ w.toNat / 2 ^ 28 = n

/-- Under the policy `fault`, a value out of range takes the arithmetic fault, with 0 written to the
target; in range the policy does not matter. -/
def FaultsOutOfRange (mk : Fields → Instr) (inRange : Fields → State → Prop) : Prop :=
  ∀ (f : Fields) (s : State), passes s.cond f.mask = true →
    (¬ inRange f s → ∃ t, execUnder faulting (mk f) s = .next t ∧
      TargetWritten f 0 .v true s t ∧ MemoryUnchanged s t ∧ t.bus = s.bus) ∧
    (inRange f s → execUnder faulting (mk f) s = exec (mk f) s)

/-- An arithmetic instruction whose exact value is `exact left (x[s2] + off)`: under `wrap` it writes
that value modulo 2^32 and sets its flag; under `fault` a value out of range faults. -/
def ArithmeticInstruction (n : Nat) (mk : Fields → Instr) (exact : Int → Int → Int) : Prop :=
  EncodedWithOpcode n mk ∧
  (∀ (f : Fields) (s : State), passes s.cond f.mask = true →
    ∃ t, exec (mk f) s = .next t ∧
      TargetWritten f (wrap (exact (leftOf f s) (rightOf f s)))
        (flagOf (wrap (exact (leftOf f s) (rightOf f s)))) false s t ∧
      t.cond ≠ .v ∧ MemoryUnchanged s t ∧ t.bus = s.bus) ∧
  FaultsOutOfRange mk fun f s => Fits (rightOf f s) ∧ Fits (exact (leftOf f s) (rightOf f s))

/-- The parts of the state the CORE's behaviour depends on: the CORE itself (R18), and the memory with its
devices (R43). -/
def SameCore (s u : State) : Prop :=
  u.regs = s.regs ∧ u.written = s.written ∧ u.cond = s.cond ∧ u.halted = s.halted ∧
  u.mem = s.mem ∧ u.regions = s.regions ∧ u.device = s.device

/-- The same CORE and memory, but for the values of registers that have had none since power-on. -/
def AgreeOnWritten (s u : State) : Prop :=
  u.written = s.written ∧ (∀ r, isWritten r s = true → readReg r u = readReg r s) ∧
  u.cond = s.cond ∧ u.halted = s.halted ∧ u.mem = s.mem ∧ u.regions = s.regions ∧
  u.device = s.device

/-- What one move answers from `s`, another answers from `u`, next states being related by `R`. -/
def SameAnswer (R : State → State → Prop) (a b : Outcome) : Prop :=
  (∀ t, a = .next t → ∃ v, b = .next v ∧ R t v) ∧
  (∀ r, a = .fault r → b = .fault r) ∧ (∀ r, a = .refused r → b = .refused r)

end Sys2Proof.Claims

open Sys2Proof Sys2Proof.Machine Sys2Proof.Claims

/-! ### Registers and the ALU -/

/-- R21. -/
def Obligations.ZeroRegisterReadsZeroAndDiscardsWrites : Prop :=
  ∀ (s : State) (v : Word), readReg 0 s = 0 ∧ writeReg 0 v s = s

/-- R22. -/
def Obligations.RegisterReadsTheLastValueWritten : Prop :=
  ∀ (s : State) (r : Reg) (v : Word), r ≠ 0 →
    readReg r (writeReg r v s) = v ∧ RegsUnchangedBut [r] s (writeReg r v s)

/-- R82. -/
def Obligations.FlagComesFromTheWordResult : Prop :=
  (∀ v : Word, (flagOf v = .z ↔ v.toInt = 0) ∧ (flagOf v = .m ↔ v.toInt < 0) ∧
    (flagOf v = .p ↔ 0 < v.toInt)) ∧
  ∀ (p : OverflowPolicy) (op : Opcode) (l r : Word),
    (alu p op l r).2 ≠ .v → (alu p op l r).2 = flagOf (alu p op l r).1

/-- R81. -/
def Obligations.DivideByZeroReturnsFault : Prop :=
  ∀ (p : OverflowPolicy) (x : Word), alu p .div x 0 = (0, .v)

/-- R84. -/
def Obligations.OverflowPoliciesBringTheValueBack : Prop :=
  ∀ (op : Opcode) (l r : Word) (e : Int), exactValue op l r = some e →
    alu .wrap op l r = (wrap e, flagOf (wrap e)) ∧
    (¬ Fits e → alu .fault op l r = (0, .v)) ∧
    (Fits e → alu .fault op l r = (wrap e, flagOf (wrap e)) ∧ (wrap e).toInt = e)

/-- R85: modulo 2^32, so the signed and the unsigned reading give the same bits; no overflow flag. -/
def Obligations.AddAndSubAreModular : Prop :=
  (∀ l r : Word,
    alu .wrap .add l r = (l + r, flagOf (l + r)) ∧ alu .wrap .sub l r = (l - r, flagOf (l - r)) ∧
    (alu .wrap .add l r).1.toNat = (l.toNat + r.toNat) % 2 ^ 32 ∧
    (alu .wrap .sub l r).1.toNat = (l.toNat + (2 ^ 32 - r.toNat)) % 2 ^ 32 ∧
    (alu .wrap .add l r).2 ≠ .v ∧ (alu .wrap .sub l r).2 ≠ .v) ∧
  alu .wrap .add (wrap 2147483647) (wrap 1) = (wrap (-2147483648), .m) ∧
  alu .wrap .add (wrap (-2147483648)) (wrap (-2147483648)) = (wrap 0, .z) ∧
  alu .wrap .sub (wrap (-2147483648)) (wrap 1) = (wrap 2147483647, .p) ∧
  alu .wrap .sub (wrap 0) (wrap (-2147483648)) = (wrap (-2147483648), .m)

/-- R86: the low 32 bits of the exact signed product, and of the unsigned one. -/
def Obligations.MulReturnsTheLow32Bits : Prop :=
  (∀ l r : Word,
    alu .wrap .mul l r = (wrap (l.toInt * r.toInt), flagOf (wrap (l.toInt * r.toInt))) ∧
    (alu .wrap .mul l r).1.toNat = (l.toNat * r.toNat) % 2 ^ 32) ∧
  alu .wrap .mul (wrap 65536) (wrap 65536) = (wrap 0, .z) ∧
  alu .wrap .mul (wrap 2147483647) (wrap 2) = (wrap (-2), .m) ∧
  alu .wrap .mul (wrap (-2147483648)) (wrap (-1)) = (wrap (-2147483648), .m) ∧
  alu .wrap .mul (wrap 46341) (wrap 46341) = (wrap (-2147479015), .m)

/-- R87: the quotient law, the one quotient out of range, and the table's rows. -/
def Obligations.DivRoundsTowardMinusInfinity : Prop :=
  (∀ l r : Word, r ≠ 0 → ¬ (l.toInt = -2147483648 ∧ r.toInt = -1) →
    ∃ rem : Int, l.toInt = (alu .wrap .div l r).1.toInt * r.toInt + rem ∧
      (0 < r.toInt → 0 ≤ rem ∧ rem < r.toInt) ∧ (r.toInt < 0 → r.toInt < rem ∧ rem ≤ 0) ∧
      (alu .wrap .div l r).2 = flagOf (alu .wrap .div l r).1) ∧
  (∀ l r : Word, r ≠ 0 →
    (¬ Fits (Int.fdiv l.toInt r.toInt) ↔ l.toInt = -2147483648 ∧ r.toInt = -1)) ∧
  alu .wrap .div (wrap 7) (wrap 2) = (wrap 3, .p) ∧
  alu .wrap .div (wrap (-7)) (wrap 2) = (wrap (-4), .m) ∧
  alu .wrap .div (wrap 7) (wrap (-2)) = (wrap (-4), .m) ∧
  alu .wrap .div (wrap (-7)) (wrap (-2)) = (wrap 3, .p) ∧
  alu .wrap .div (wrap 1) (wrap 2) = (wrap 0, .z) ∧
  alu .wrap .div (wrap (-1)) (wrap 2) = (wrap (-1), .m) ∧
  alu .wrap .div (wrap 1) (wrap (-2)) = (wrap (-1), .m) ∧
  alu .wrap .div (wrap (-1)) (wrap (-2)) = (wrap 0, .z) ∧
  alu .wrap .div (wrap 0) (wrap (-5)) = (wrap 0, .z) ∧
  (∀ x : Word, alu .wrap .div x (wrap 0) = (wrap 0, .v)) ∧
  alu .wrap .div (wrap (-2147483648)) (wrap (-1)) = (wrap (-2147483648), .m) ∧
  alu .fault .div (wrap (-2147483648)) (wrap (-1)) = (wrap 0, .v)

/-- R89 and R90. -/
def Obligations.HaltAndInvalidIgnoreTheOperands : Prop :=
  ∀ (p : OverflowPolicy) (l r : Word), alu p .halt l r = (0, .z) ∧ alu p .invalid l r = (0, .v)

/-- The causes of the arithmetic fault in this hardware (60_exceptions.md, the table of causes). -/
def Obligations.FaultFlagHasExactlyItsCauses : Prop :=
  ∀ (op : Opcode) (l r : Word),
    ((alu .wrap op l r).2 = .v ↔ op = .invalid ∨ (op = .div ∧ r = 0)) ∧
    ((alu .wrap op l r).2 = .v → (alu .wrap op l r).1 = 0)

/-! ### Encoding -/

/-- Words written out from the layout (95_test_vectors.md 2.3), one for each row of the table. -/
def Obligations.WordsOfTheVectorTableDecode : Prop :=
  decode 0x3F100005 = .add { mask := 0xF, t := 1, s1 := 0, s2 := 0, off := 5 } ∧
  decode 0x0F000000 = .halt { mask := 0xF, t := 0, s1 := 0, s2 := 0, off := 0 } ∧
  decode 0x34F0FFFE = .add { mask := 0x4, t := 15, s1 := 0, s2 := 15, off := 0xFFE } ∧
  decode 0x2F200064 = .store { mask := 0xF, t := 2, s1 := 0, s2 := 0, off := 100 } ∧
  decode 0x1F300064 = .load { mask := 0xF, t := 3, s1 := 0, s2 := 0, off := 100 } ∧
  decode 0x6F210000 = .div { mask := 0xF, t := 2, s1 := 1, s2 := 0, off := 0 } ∧
  decode 0x4F110001 = .sub { mask := 0xF, t := 1, s1 := 1, s2 := 0, off := 1 } ∧
  decode 0x5F312000 = .mul { mask := 0xF, t := 3, s1 := 1, s2 := 2, off := 0 } ∧
  decode 0x7F000000 = .invalid7 { mask := 0xF, t := 0, s1 := 0, s2 := 0, off := 0 } ∧
  decode 0x8A5C3123 = .invalidHigh { mask := 0xA, t := 5, s1 := 12, s2 := 3, off := 291 } ∧
  decode 0xFFFFFFFF = .invalidHigh { mask := 0xF, t := 15, s1 := 15, s2 := 15, off := 0xFFF }

/-- R77. -/
def Obligations.WorkedExampleEncodes : Prop :=
  encode (.add { mask := Mask.always, t := 1, s1 := 0, s2 := 0, off := 5 }) = 0x3F100005 ∧
  encode (.halt { mask := Mask.always, t := 0, s1 := 0, s2 := 0, off := 0 }) = 0x0F000000

/-- R61 and R63: every field as a number read from the word's bits. -/
def Obligations.DecodedFieldsAreTheWordsBits : Prop :=
  ∀ w : Word,
    (decode w).fields.mask.toNat = w.toNat / 2 ^ 24 % 16 ∧
    (decode w).fields.t.val = w.toNat / 2 ^ 20 % 16 ∧
    (decode w).fields.s1.val = w.toNat / 2 ^ 16 % 16 ∧
    (decode w).fields.s2.val = w.toNat / 2 ^ 12 % 16 ∧
    (decode w).fields.off.toInt =
      (if w.toNat % 4096 < 2048 then ((w.toNat % 4096 : Nat) : Int)
       else ((w.toNat % 4096 : Nat) : Int) - 4096) ∧
    -2048 ≤ (decode w).fields.off.toInt ∧ (decode w).fields.off.toInt ≤ 2047

/-- R62 and R72, in the match and mask form of R72. -/
def Obligations.OpcodeMapIsTheTables : Prop :=
  ∀ w : Word,
    (w &&& 0xF0000000#32 = 0x00000000#32 ↔ (decode w).op = .halt) ∧
    (w &&& 0xF0000000#32 = 0x10000000#32 ↔ (decode w).op = .load) ∧
    (w &&& 0xF0000000#32 = 0x20000000#32 ↔ (decode w).op = .store) ∧
    (w &&& 0xF0000000#32 = 0x30000000#32 ↔ (decode w).op = .add) ∧
    (w &&& 0xF0000000#32 = 0x40000000#32 ↔ (decode w).op = .sub) ∧
    (w &&& 0xF0000000#32 = 0x50000000#32 ↔ (decode w).op = .mul) ∧
    (w &&& 0xF0000000#32 = 0x60000000#32 ↔ (decode w).op = .div) ∧
    (w &&& 0xF0000000#32 = 0x70000000#32 ∨ w &&& 0x80000000#32 = 0x80000000#32 ↔
      (decode w).op = .invalid)

/-- R69. -/
def Obligations.EncodeFollowsTheFormulaAndDecodesBack : Prop :=
  ∀ i : Instr, WellFormed i = true →
    (encode i).toNat =
      (opcodeField i).toNat * 2 ^ 28 + i.fields.mask.toNat * 2 ^ 24 + i.fields.t.val * 2 ^ 20 +
        i.fields.s1.val * 2 ^ 16 + i.fields.s2.val * 2 ^ 12 + i.fields.off.toNat ∧
    (opcodeField i).toNat ≤ 6 ∧ decode (encode i) = i

/-- The other direction, for every word with a defined opcode (95_test_vectors.md 2.3, "Round trip"),
and the model's own choice of log entry 7 for the INVALID rows. -/
def Obligations.DecodeThenEncodeGivesTheWordBack : Prop :=
  (∀ w : Word, WellFormed (decode w) = true → encode (decode w) = w) ∧
  (∀ i : Instr, WellFormed i = false → decode (encode i) = i)

/-- R71. -/
def Obligations.NegativeWordsAreInvalidAndZeroIsANoOp : Prop :=
  (∀ w : Word, (w.toInt < 0 ↔ w.getLsbD 31 = true) ∧
    (w.toInt < 0 → 8 ≤ w.toNat / 2 ^ 28 ∧ (decode w).op = .invalid)) ∧
  decode 0 = .halt { mask := Mask.never, t := 0, s1 := 0, s2 := 0, off := 0 } ∧
  ∀ s : State, s.halted = false → isStorage (readReg 15 s) s = true →
    readWord (readReg 15 s) s = 0 →
    ∃ t, step s = .next t ∧ readReg 15 t = wrap ((readReg 15 s).toInt + 1) ∧
      t.halted = false ∧ t.cond = s.cond ∧ RegsUnchangedBut [15] s t ∧ MemoryUnchanged s t

/-! ### The condition test and the skip -/

/-- R97. -/
def Obligations.ConditionTestIsTheMasksBit : Prop :=
  (∀ (c : Flag) (mask : Mask), passes c mask = true ↔ flagBits c &&& mask ≠ 0) ∧
  (∀ mask : Mask, passes .m mask = mask.getLsbD 0 ∧ passes .z mask = mask.getLsbD 1 ∧
    passes .p mask = mask.getLsbD 2 ∧ passes .v mask = mask.getLsbD 3) ∧
  ∀ c : Flag, passes c Mask.always = true ∧ passes c Mask.never = false

/-- R98: every instruction, HALT and INVALID included, under any parameters. -/
def Obligations.SkippedInstructionOnlyAdvancesThePc : Prop :=
  ∀ (i : Instr) (s : State), passes s.cond i.fields.mask = false →
    ∃ t, exec i s = .next t ∧ OnlyAdvanced s.cond false s t ∧ MemoryUnchanged s t ∧ t.bus = s.bus ∧
      ∀ c : Params, execUnder c i s = .next t

/-! ### The instructions -/

/-- R113. -/
def Obligations.AddWritesTheWrappedSum : Prop :=
  ArithmeticInstruction 3 .add (fun a b => a + b) ∧
  ∀ s : State, ∃ t, exec (decode 0x3F100005) s = .next t ∧ readReg 1 t = wrap 5 ∧ t.cond = .p

/-- R114. -/
def Obligations.SubWritesTheWrappedDifference : Prop :=
  ArithmeticInstruction 4 .sub (fun a b => a - b) ∧
  ∀ s : State, ∃ t, exec (decode 0x4F100007) s = .next t ∧ readReg 1 t = wrap (-7) ∧ t.cond = .m

/-- R115. -/
def Obligations.MulWritesTheLowProduct : Prop :=
  ArithmeticInstruction 5 .mul (fun a b => a * b) ∧
  ∀ s : State, readReg 1 s = wrap 6 → readReg 2 s = wrap 7 →
    ∃ t, exec (decode 0x5F312000) s = .next t ∧ readReg 3 t = wrap 42 ∧ t.cond = .p

/-- R116: the quotient by the wrapped divisor, and the arithmetic fault where that is 0. -/
def Obligations.DivWritesTheFloorQuotientOrFaults : Prop :=
  EncodedWithOpcode 6 .div ∧
  (∀ (f : Fields) (s : State), passes s.cond f.mask = true →
    (wrap (rightOf f s) ≠ 0 → ∃ t, exec (.div f) s = .next t ∧
      TargetWritten f (wrap (Int.fdiv (leftOf f s) (wrap (rightOf f s)).toInt))
        (flagOf (wrap (Int.fdiv (leftOf f s) (wrap (rightOf f s)).toInt))) false s t ∧
      t.cond ≠ .v ∧ MemoryUnchanged s t ∧ t.bus = s.bus) ∧
    (wrap (rightOf f s) = 0 → ∃ t, exec (.div f) s = .next t ∧
      TargetWritten f 0 .v true s t ∧ MemoryUnchanged s t ∧ t.bus = s.bus)) ∧
  (FaultsOutOfRange .div fun f s =>
    Fits (rightOf f s) ∧ (rightOf f s ≠ 0 → Fits (Int.fdiv (leftOf f s) (rightOf f s)))) ∧
  (∀ s : State, readReg 1 s = wrap (-7) →
    ∃ t, exec (decode 0x6F210002) s = .next t ∧ readReg 2 t = wrap (-4) ∧ t.cond = .m) ∧
  ∀ s : State, readReg 1 s = wrap 7 →
    ∃ t, exec (decode 0x6F210000) s = .next t ∧ readReg 2 t = 0 ∧ t.cond = .v ∧ t.halted = true

/-- R117, where the address is storage; where it is a device, `DeviceAccessesActAsTheMemParameterSays`. -/
def Obligations.LoadReadsTheWordAtTheEffectiveAddress : Prop :=
  EncodedWithOpcode 1 .load ∧
  (∀ (f : Fields) (s : State), passes s.cond f.mask = true →
    (isStorage (ea f s) s = true → ∃ t, exec (.load f) s = .next t ∧
      TargetWritten f (readWord (ea f s) s) (flagOf (ea f s)) false s t ∧ MemoryUnchanged s t ∧
      t.bus = { kind := .load, addr := ea f s, word := readWord (ea f s) s } :: s.bus) ∧
    (kindAt (ea f s) s.regions = none → exec (.load f) s = .fault (.memoryRange (ea f s)))) ∧
  (∀ (f : Fields) (s : State), passes s.cond f.mask = true →
    (Fits (rightOf f s) ∧ Fits (leftOf f s + rightOf f s) →
      execUnder faulting (.load f) s = exec (.load f) s) ∧
    (¬ (Fits (rightOf f s) ∧ Fits (leftOf f s + rightOf f s)) → isStorage 0 s = true →
      ∃ t, execUnder faulting (.load f) s = .next t ∧
        TargetWritten f (readWord 0 s) .v true s t ∧ MemoryUnchanged s t ∧
        t.bus = { kind := .load, addr := 0, word := readWord 0 s } :: s.bus)) ∧
  ∀ s : State, isStorage 100 s = true → readWord 100 s = wrap 42 →
    ∃ t, exec (decode 0x1F300064) s = .next t ∧ readReg 3 t = wrap 42 ∧ t.cond = .p

/-- R118, where the address is storage; where it is a device, `DeviceAccessesActAsTheMemParameterSays`. -/
def Obligations.StoreWritesTheWordAtTheEffectiveAddress : Prop :=
  EncodedWithOpcode 2 .store ∧
  (∀ (f : Fields) (s : State), passes s.cond f.mask = true →
    (isStorage (ea f s) s = true → ∃ t, exec (.store f) s = .next t ∧
      OnlyAdvanced (flagOf (ea f s)) false s t ∧ OnlyStored (ea f s) (readReg f.t s) s t ∧
      t.bus = { kind := .store, addr := ea f s, word := readReg f.t s } :: s.bus) ∧
    (kindAt (ea f s) s.regions = none → exec (.store f) s = .fault (.memoryRange (ea f s)))) ∧
  (∀ (f : Fields) (s : State), passes s.cond f.mask = true →
    (Fits (rightOf f s) ∧ Fits (leftOf f s + rightOf f s) →
      execUnder faulting (.store f) s = exec (.store f) s) ∧
    (¬ (Fits (rightOf f s) ∧ Fits (leftOf f s + rightOf f s)) → isStorage 0 s = true →
      ∃ t, execUnder faulting (.store f) s = .next t ∧ OnlyAdvanced .v true s t ∧
        OnlyStored 0 (readReg f.t s) s t ∧
        t.bus = { kind := .store, addr := 0, word := readReg f.t s } :: s.bus)) ∧
  ∀ s : State, isStorage 100 s = true → readReg 2 s = wrap 42 →
    ∃ t, exec (decode 0x2F200064) s = .next t ∧ readWord 100 t = wrap 42 ∧ t.cond = .p

/-- The source's property (R118's example): a STORE and then a LOAD with the same computed address, at an
address that is plain storage (a device need not give back what was written, R50). -/
def Obligations.StoreThenLoadReturnsTheStoredWord : Prop :=
  ∀ (f g : Fields) (s t : State), passes s.cond f.mask = true → exec (.store f) s = .next t →
    isStorage (ea f s) s = true → passes t.cond g.mask = true → ea g t = ea f s →
    ∃ u, exec (.load g) t = .next u ∧ readReg g.t u = if g.t = 0 then 0 else readReg f.t s

/-- R50: at an address that is a device, a fetch, a LOAD (for r0 too) and a STORE are single accesses whose
answer and side effects are those of the parameter `Mem`, whatever they are. The last two clauses say
that the machine is this one at its own free device behaviour (log entry 10). -/
def Obligations.DeviceAccessesActAsTheMemParameterSays : Prop :=
  (∀ (d : DeviceBehaviour) (f : Fields) (s : State), passes s.cond f.mask = true →
    kindAt (ea f s) s.regions = some .device →
    (∃ t, execUnder (withDevices d) (.load f) s = .next t ∧
      TargetWritten f (d.read s.device (ea f s) (readWord (ea f s) s)).word (flagOf (ea f s)) false s t ∧
      DeviceActed (d.read s.device (ea f s) (readWord (ea f s) s)) s t ∧
      t.bus = { kind := .load, addr := ea f s,
                word := (d.read s.device (ea f s) (readWord (ea f s) s)).word } :: s.bus) ∧
    ∃ t, execUnder (withDevices d) (.store f) s = .next t ∧
      OnlyAdvanced (flagOf (ea f s)) false s t ∧
      DeviceActed (d.write s.device (ea f s) (readReg f.t s)) s t ∧
      t.bus = { kind := .store, addr := ea f s, word := readReg f.t s } :: s.bus) ∧
  (∀ (d : DeviceBehaviour) (s : State), s.halted = false →
    kindAt (readReg 15 s) s.regions = some .device →
    ∃ u, stepUnder (withDevices d) s =
        execUnder (withDevices d)
          (decode (d.read s.device (readReg 15 s) (readWord (readReg 15 s) s)).word) u ∧
      u.regs = s.regs ∧ u.written = s.written ∧ u.cond = s.cond ∧ u.halted = s.halted ∧
      u.regions = s.regions ∧ u.observers = s.observers ∧
      DeviceActed (d.read s.device (readReg 15 s) (readWord (readReg 15 s) s)) s u ∧
      u.bus = { kind := .fetch, addr := readReg 15 s,
                word := (d.read s.device (readReg 15 s) (readWord (readReg 15 s) s)).word } :: s.bus) ∧
  (∀ (i : Instr) (s : State), execUnder (withDevices Config.device) i s = exec i s) ∧
  ∀ s : State, stepUnder (withDevices Config.device) s = step s

/-- R102 and what HALT leaves: `cond` Z, the program counter advanced; the fields but the mask do not
matter (R67). -/
def Obligations.HaltHaltsAndWritesNothingElse : Prop :=
  EncodedWithOpcode 0 .halt ∧
  (∀ (f : Fields) (s : State), passes s.cond f.mask = true →
    ∃ t, exec (.halt f) s = .next t ∧ OnlyAdvanced .z true s t ∧ MemoryUnchanged s t ∧
      t.bus = s.bus) ∧
  (∀ (f g : Fields) (s : State), f.mask = g.mask → exec (.halt f) s = exec (.halt g) s) ∧
  ∀ s : State, readReg 15 s = wrap 1 → ∃ t, exec (decode 0x0F000000) s = .next t ∧
    t.halted = true ∧ t.cond = .z ∧ readReg 15 t = wrap 2

/-- R121. -/
def Obligations.InvalidTakesTheFaultAndWritesNothingElse : Prop :=
  EncodedWithOpcode 7 .invalid7 ∧
  (∀ w : Word, decode w = .invalidHigh (fieldsOf w) ↔ 8 ≤ w.toNat / 2 ^ 28) ∧
  (∀ (f : Fields) (s : State), passes s.cond f.mask = true →
    ∃ t, exec (.invalid7 f) s = .next t ∧ exec (.invalidHigh f) s = .next t ∧
      OnlyAdvanced .v true s t ∧ MemoryUnchanged s t ∧ t.bus = s.bus) ∧
  (∀ (f : Fields) (s : State), passes s.cond f.mask = false →
    ∃ t, exec (.invalid7 f) s = .next t ∧ exec (.invalidHigh f) s = .next t ∧
      OnlyAdvanced s.cond false s t ∧ MemoryUnchanged s t ∧ t.bus = s.bus) ∧
  ∀ s : State, readReg 15 s = wrap 3 → ∃ t, exec (decode 0x7F000000) s = .next t ∧
    t.cond = .v ∧ t.halted = true ∧ readReg 15 t = wrap 4

/-- R107. -/
def Obligations.ReadsPrecedeWritesWithinAStep : Prop :=
  ∀ s : State,
    (∃ t, exec (decode 0x3F111000) s = .next t ∧ readReg 1 t = wrap (2 * (readReg 1 s).toInt)) ∧
    (isStorage (readReg 2 s) s = true →
      ∃ t, exec (decode 0x1F220000) s = .next t ∧ readReg 2 t = readWord (readReg 2 s) s) ∧
    (∃ t, exec (decode 0x3FFF0001) s = .next t ∧
      readReg 15 t = wrap ((readReg 15 s).toInt + 1)) ∧
    ∃ t, exec (decode 0x3FF0F000) s = .next t ∧ readReg 15 t = readReg 15 s ∧
      t.cond = flagOf (readReg 15 s)

/-! ### Rules over every instruction -/

/-- R29 and R88: an executed instruction sets `cond` to the ALU's flag; nothing else writes it. -/
def Obligations.OnlyAnExecutedInstructionWritesCond : Prop :=
  (∀ (i : Instr) (s t : State), exec i s = .next t →
    (passes s.cond i.fields.mask = true → t.cond = (aluOf i s).2) ∧
    (passes s.cond i.fields.mask = false → t.cond = s.cond)) ∧
  (∀ (f : Fields) (s : State), aluOf (.load f) s = (ea f s, flagOf (ea f s)) ∧
    aluOf (.store f) s = (ea f s, flagOf (ea f s)) ∧ (aluOf (.halt f) s).2 = .z ∧
    (aluOf (.invalid7 f) s).2 = .v ∧ (aluOf (.invalidHigh f) s).2 = .v) ∧
  (∀ (i : Instr) (s t : State), exec i s = .next t → passes s.cond i.fields.mask = true →
    (i.op = .invalid ∨ (i.op = .div ∧ wrap (rightOf i.fields s) = 0)) → t.cond = .v) ∧
  ∀ (c : HostCommand) (s t : State), hostCommand c s = .next t → t.cond = s.cond

/-- R104. -/
def Obligations.NextPcIsTheWordWrittenOrTheNextAddress : Prop :=
  ∀ (i : Instr) (s t : State), exec i s = .next t →
    readReg 15 t =
      if passes s.cond i.fields.mask = true ∧ i.fields.t = 15 then
        (targetValue i s).getD (wrap ((readReg 15 s).toInt + 1))
      else wrap ((readReg 15 s).toInt + 1)

/-- R105: the alternatives, which are not part of this hardware, against `write_wins`. -/
def Obligations.PcOrderAlternativesDifferAsStated : Prop :=
  (∀ (i : Instr) (s t : State), passes s.cond i.fields.mask = true →
    execUnder { overflow := .wrap, pcOrder := .incrementAfterWrite } i s = .next t →
    readReg 15 t =
      if i.fields.t = 15 then
        wrap (((targetValue i s).getD (readReg 15 s)).toInt + 1)
      else wrap ((readReg 15 s).toInt + 1)) ∧
  (∀ (i : Instr) (s t : State), passes s.cond i.fields.mask = true →
    execUnder { overflow := .wrap, pcOrder := .advanceOverrides } i s = .next t →
    readReg 15 t = wrap ((readReg 15 s).toInt + 1)) ∧
  (∀ (p : OverflowPolicy) (i : Instr) (s : State), ¬ (i.op = .store ∧ i.fields.t = 15) →
    execUnder { overflow := p, pcOrder := .advanceBeforeWriteback } i s =
      execUnder { overflow := p, pcOrder := .writeWins } i s) ∧
  ∀ (f : Fields) (s : State), f.t = 15 → passes s.cond f.mask = true →
    isStorage (ea f s) s = true →
    ∃ t, execUnder { overflow := .wrap, pcOrder := .advanceBeforeWriteback } (.store f) s = .next t ∧
      readWord (ea f s) t = wrap ((readReg 15 s).toInt + 1)

/-- Decision D2 asks for claims under both overflow policies: where no value leaves the word range
they are the same machine. -/
def Obligations.OverflowPolicyMattersOnlyOutOfRange : Prop :=
  ∀ (i : Instr) (s : State),
    noOverflow i.op (readReg i.fields.s1 s) (readReg i.fields.s2 s) i.fields.off = true →
    execUnder faulting i s = exec i s

/-- The advance and the jump forms of R76 and R122: where control goes, and the condition left. -/
def Obligations.JumpsReachTheirTargets : Prop :=
  ∀ (s : State) (mask : Mask), passes s.cond mask = true →
    (∀ (target : Word) (i : Instr), expandPseudo (readReg 15 s) (.jump mask target) = some i →
      ∃ t, exec i s = .next t ∧ readReg 15 t = target ∧ t.cond = flagOf target) ∧
    (∀ target : Word, (expandPseudo (readReg 15 s) (.jump mask target)).isSome = true ↔
      -2048 ≤ target.toInt - (readReg 15 s).toInt ∧ target.toInt - (readReg 15 s).toInt ≤ 2047) ∧
    (∀ (addr : Offset) (i : Instr), expandPseudo (readReg 15 s) (.jumpa mask addr) = some i →
      ∃ t, exec i s = .next t ∧ readReg 15 t = wrap addr.toInt ∧ t.cond = flagOf (wrap addr.toInt)) ∧
    ∀ (r : Reg) (i : Instr), expandPseudo (readReg 15 s) (.jumpr mask r) = some i →
      ∃ t, exec i s = .next t ∧ readReg 15 t = readReg r s ∧ t.cond = flagOf (readReg r s)

/-- The other expansions of R76. -/
def Obligations.PseudoInstructionsHaveTheirNotedEffect : Prop :=
  ∀ (s : State) (a : Word),
    (∃ i t, expandPseudo a .nop = some i ∧ encode i = 0 ∧ exec i s = .next t ∧
      OnlyAdvanced s.cond false s t ∧ MemoryUnchanged s t ∧ t.bus = s.bus) ∧
    (∀ (r : Reg) (imm : Offset), ∃ i t, expandPseudo a (.li r imm) = some i ∧ exec i s = .next t ∧
      TargetWritten { mask := 0, t := r, s1 := 0, s2 := 0, off := 0 } (wrap imm.toInt)
        (flagOf (wrap imm.toInt)) false s t ∧ MemoryUnchanged s t ∧ t.bus = s.bus) ∧
    (∀ r q : Reg, ∃ i t, expandPseudo a (.move r q) = some i ∧ exec i s = .next t ∧
      TargetWritten { mask := 0, t := r, s1 := 0, s2 := 0, off := 0 } (readReg q s)
        (flagOf (readReg q s)) false s t ∧ MemoryUnchanged s t ∧ t.bus = s.bus) ∧
    (∀ p q : Reg, ∃ i t, expandPseudo a (.cmp p q) = some i ∧ exec i s = .next t ∧
      OnlyAdvanced (flagOf (wrap ((readReg p s).toInt - (readReg q s).toInt))) false s t ∧
      MemoryUnchanged s t ∧ t.bus = s.bus) ∧
    (∀ (p : Reg) (imm : Offset), ∃ i t, expandPseudo a (.cmpi p imm) = some i ∧
      exec i s = .next t ∧
      OnlyAdvanced (flagOf (wrap ((readReg p s).toInt - imm.toInt))) false s t ∧
      MemoryUnchanged s t ∧ t.bus = s.bus) ∧
    (∀ (r : Reg) (addr : Offset), isStorage (wrap addr.toInt) s = true →
      ∃ i t, expandPseudo a (.loada r addr) = some i ∧ exec i s = .next t ∧
        TargetWritten { mask := 0, t := r, s1 := 0, s2 := 0, off := 0 } (readWord (wrap addr.toInt) s)
          (flagOf (wrap addr.toInt)) false s t ∧ MemoryUnchanged s t) ∧
    ∀ (r : Reg) (addr : Offset), isStorage (wrap addr.toInt) s = true →
      ∃ i t, expandPseudo a (.storea r addr) = some i ∧ exec i s = .next t ∧
        OnlyAdvanced (flagOf (wrap addr.toInt)) false s t ∧
        OnlyStored (wrap addr.toInt) (readReg r s) s t

/-! ### The step -/

/-- R94 and R95: a step executes the instruction decoded from the word at the program counter, in the
state that differs from `s` only by the fetch made and the trace event emitted; a fetch from storage
reads the word there and leaves memory as it is. -/
def Obligations.StepRunsTheDecodedInstruction : Prop :=
  ∀ s : State, s.halted = false →
    (kindAt (readReg 15 s) s.regions = none → step s = .fault (.memoryRange (readReg 15 s))) ∧
    ∀ i : Instr, kindAt (readReg 15 s) s.regions ≠ none →
      decode (wordRead hardware (readReg 15 s) s) = i →
      step s = exec i (afterTrace hardware s) ∧
      (afterTrace hardware s).regs = s.regs ∧ (afterTrace hardware s).written = s.written ∧
      (afterTrace hardware s).cond = s.cond ∧ (afterTrace hardware s).halted = s.halted ∧
      (afterTrace hardware s).regions = s.regions ∧
      (afterTrace hardware s).observers = s.observers ∧
      (afterTrace hardware s).bus =
        { kind := .fetch, addr := readReg 15 s, word := wordRead hardware (readReg 15 s) s } :: s.bus ∧
      (isStorage (readReg 15 s) s = true → wordRead hardware (readReg 15 s) s = readWord (readReg 15 s) s ∧
        (afterTrace hardware s).mem = s.mem ∧ (afterTrace hardware s).device = s.device)

/-- The trace event of R96: one in every step, skipped or executed, carrying the pre-execution state,
delivered to the registered observers in registration order. -/
def Obligations.EveryStepEmitsOneTraceEvent : Prop :=
  ∀ s t : State, s.halted = false → step s = .next t →
    t.trace =
      { addr := readReg 15 s, word := wordRead hardware (readReg 15 s) s, instr := fetched s,
        subject := { regs := s.regs, cond := s.cond, halted := s.halted },
        listeners := s.observers } :: s.trace ∧ t.observers = s.observers

/-- R50's access pattern, at storage and devices alike; a LOAD reads after the fetch has been made. -/
def Obligations.StepMakesExactlyItsAccesses : Prop :=
  ∀ s t : State, s.halted = false → step s = .next t →
    t.bus =
      (if passes s.cond (fetched s).fields.mask = true then
        (match (fetched s).op with
          | .load => [{ kind := .load, addr := ea (fetched s).fields s,
                        word := wordRead hardware (ea (fetched s).fields s) (afterTrace hardware s) }]
          | .store => [{ kind := .store, addr := ea (fetched s).fields s,
                         word := readReg (fetched s).fields.t s }]
          | _ => [])
       else []) ++
      { kind := .fetch, addr := readReg 15 s, word := wordRead hardware (readReg 15 s) s } :: s.bus

/-- The frame of a step: which registers (R25) and which word of memory (R50, R103) it may change. A step
none of whose accesses is at a device changes no word but a stored one, and no device's state. -/
def Obligations.StepChangesOnlyTargetPcAndStoredWord : Prop :=
  ∀ s t : State, s.halted = false → step s = .next t →
    t.regions = s.regions ∧
    (∀ r : Reg, r ≠ 15 →
      ¬ (passes s.cond (fetched s).fields.mask = true ∧ r = (fetched s).fields.t ∧
        (targetValue (fetched s) s).isSome = true) →
      readReg r t = readReg r s ∧ isWritten r t = isWritten r s) ∧
    (isStorage (readReg 15 s) s = true →
      (passes s.cond (fetched s).fields.mask = true →
        (fetched s).op = .load ∨ (fetched s).op = .store →
        isStorage (ea (fetched s).fields s) s = true) →
      t.device = s.device ∧
      ∀ a : Word,
        ¬ (passes s.cond (fetched s).fields.mask = true ∧ (fetched s).op = .store ∧
          a = ea (fetched s).fields s) →
        readWord a t = readWord a s)

/-- R56: a store into storage is seen by every later fetch of its address, and an instruction that stores
over its own address executes as fetched. -/
def Obligations.FetchSeesEveryEarlierStore : Prop :=
  (∀ (f : Fields) (s t : State), exec (.store f) s = .next t → passes s.cond f.mask = true →
    isStorage (ea f s) s = true →
    ∀ u : State, (∀ a : Word, readWord a u = readWord a t) → u.halted = false →
      readReg 15 u = ea f s → isStorage (ea f s) u = true →
      step u = exec (decode (readReg f.t s)) (afterTrace hardware u)) ∧
  ∀ (f : Fields) (s : State), s.halted = false → isStorage (readReg 15 s) s = true →
    fetched s = .store f → passes s.cond f.mask = true → ea f s = readReg 15 s →
    ∃ t, step s = .next t ∧ readWord (readReg 15 s) t = readReg f.t s ∧
      OnlyAdvanced (flagOf (readReg 15 s)) false (afterTrace hardware s) t

/-- R30. -/
def Obligations.HaltedIsSetOnlyByHaltOrFault : Prop :=
  (∀ s t : State, s.halted = false → step s = .next t →
    (t.halted = true ↔ passes s.cond (fetched s).fields.mask = true ∧
      ((fetched s).op = .halt ∨ (aluOf (fetched s) s).2 = .v))) ∧
  (∀ s t : State, s.halted = true → step s = .next t → t.halted = true) ∧
  ∀ (c : HostCommand) (s t : State), s.halted = true → hostCommand c s = .next t →
    (t.halted = false ↔ ∃ a, c = .start a)

/-- The arithmetic fault of R128 in a whole step: precise, nothing saved, no further step. -/
def Obligations.ArithmeticFaultHaltsPrecisely : Prop :=
  ∀ s : State, s.halted = false → isStorage (readReg 15 s) s = true →
    passes s.cond (fetched s).fields.mask = true → (aluOf (fetched s) s).2 = .v →
    ∃ t, step s = .next t ∧ t.cond = .v ∧ t.halted = true ∧
      ((fetched s).op = .invalid →
        RegsUnchangedBut [15] s t ∧ readReg 15 t = wrap ((readReg 15 s).toInt + 1)) ∧
      ((fetched s).op = .div → RegsUnchangedBut [(fetched s).fields.t, 15] s t ∧
        readReg (fetched s).fields.t t = 0 ∧
        readReg 15 t =
          if (fetched s).fields.t = 15 then 0 else wrap ((readReg 15 s).toInt + 1)) ∧
      MemoryUnchanged s t ∧ ∀ k : Nat, Sys2Proof.core.run k t = .next t

/-- HALTED is absorbing (R108), as the model shows it (log entry 8): a step there answers the state as it is. -/
def Obligations.HaltedIsAbsorbing : Prop :=
  ∀ s : State, s.halted = true → ∀ k : Nat, Sys2Proof.core.run k s = .next s

/-- R37 and R139. -/
def Obligations.StartSetsOnlyThePcAndHalted : Prop :=
  ∀ (a : Word) (s : State), s.halted = true →
    ∃ t, hostCommand (.start a) s = .next t ∧ t.halted = false ∧
      readReg 15 t = a ∧ isWritten 15 t = true ∧ t.cond = s.cond ∧ RegsUnchangedBut [15] s t ∧
      MemoryUnchanged s t ∧ RestUnchanged s t ∧ t.bus = s.bus ∧
      (kindAt a s.regions ≠ none →
        step t = exec (decode (wordRead hardware a s)) (afterTrace hardware t))

/-- The host's interactions of R110: refused while running (log entry 13), and what each does in HALTED. Loads
and reads are of `Mem.word`, at storage and devices alike (log entry 10). Registering appends, also a
number already registered, and removing leaves no entry of that number and every other observer in
its place (log entry 11, the model's choice). -/
def Obligations.HostActsOnlyWhileHalted : Prop :=
  (∀ (c : HostCommand) (q : HostQuery) (s : State), s.halted = false →
    hostCommand c s = .refused .hostWhileRunning ∧ hostQuery q s = none) ∧
  ∀ s : State, s.halted = true →
    (∀ a v : Word, kindAt a s.regions ≠ none → ∃ t, hostCommand (.loadWord a v) s = .next t ∧
      OnlyStored a v s t ∧ t.regs = s.regs ∧ t.cond = s.cond ∧ t.halted = true ∧ t.bus = s.bus) ∧
    (∀ a : Word, kindAt a s.regions ≠ none → hostQuery (.word a) s = some (.word (readWord a s))) ∧
    (∀ r : Reg, hostQuery (.register r) s = some (.word (readReg r s))) ∧
    hostQuery .condition s = some (.flag s.cond) ∧ hostQuery .halted s = some (.bool true) ∧
    ∀ n : Nat, ∃ t u, hostCommand (.addObserver n) s = .next t ∧
      t.observers = s.observers ++ [n] ∧ SameCore s t ∧
      hostCommand (.removeObserver n) s = .next u ∧ n ∉ u.observers ∧
      u.observers.Sublist s.observers ∧
      (∀ m : Nat, m ≠ n → u.observers.count m = s.observers.count m) ∧ SameCore s u

/-- R143: why a run ended is in `cond`, and the next run starts from what it left. -/
def Obligations.SecondRunStartsFromWhatTheFirstLeft : Prop :=
  ∀ (s t : State) (a : Word), s.halted = false → step s = .next t → t.halted = true →
    ((fetched s).op = .halt → t.cond = .z) ∧ ((fetched s).op ≠ .halt → t.cond = .v) ∧
    ∃ u, hostCommand (.start a) t = .next u ∧ u.cond = t.cond ∧ RegsUnchangedBut [15] t u ∧
      MemoryUnchanged t u ∧ readReg 15 u = a ∧ u.halted = false

/-- The end of a run (R111): reported only in HALTED, and final. The final state is the first HALTED state the
machine's steps reach; an unfinished run is where as many steps as the fuel lead, HALTED at none. -/
def Obligations.RunEndsOnlyInHalted : Prop :=
  (∀ (k : Nat) (s t : State), runFor k s = .ended t → t.halted = true ∧
    ∃ j, j ≤ k ∧ Sys2Proof.core.run j s = .next t ∧
      ∀ i, i < j → ∃ u, Sys2Proof.core.run i s = .next u ∧ u.halted = false) ∧
  (∀ (k j : Nat) (s t : State), runFor k s = .ended t → k ≤ j → runFor j s = .ended t) ∧
  ∀ (k : Nat) (s t : State), runFor k s = .unfinished t →
    t.halted = false ∧ Sys2Proof.core.run k s = .next t ∧
      ∀ i, i ≤ k → ∃ u, Sys2Proof.core.run i s = .next u ∧ u.halted = false

/-- The next step is always enabled (R147): with all addresses admitted, as storage or devices, a running
CORE never stops in a fault or a refusal, and never waits. That no UnwrittenRegister stop of R125 remains
to be excluded is the model's choice (log entry 1). -/
def Obligations.RunningCoreAlwaysSteps : Prop :=
  ∀ s : State, (∀ a : Word, kindAt a s.regions ≠ none) →
    ∃ t, step s = .next t ∧ (∀ a : Word, kindAt a t.regions ≠ none) ∧
      (s.halted = false → t.trace.length = s.trace.length + 1)

/-- The model stops only where the memory does not answer (R125, R132): at the fetch address, or at the
effective address of an executed LOAD or STORE. That every fault is MemoryRange, R125's other reason
UnwrittenRegister being none, is the model's choice (log entry 1); that no step is refused, an access to
a device being answered by a free value, is log entry 10. -/
def Obligations.StepStopsOnlyAtTheMemory : Prop :=
  ∀ s : State,
    (∀ r, step s = .fault r → ∃ a, r = .memoryRange a ∧ kindAt a s.regions = none ∧
      (a = readReg 15 s ∨ (passes s.cond (fetched s).fields.mask = true ∧
        ((fetched s).op = .load ∨ (fetched s).op = .store) ∧ a = ea (fetched s).fields s))) ∧
    ∀ r, step s ≠ .refused r

/-! ### Reset and invariants -/

/-- R36, for every value of the parameters it leaves OPEN. -/
def Obligations.PowerOnIsHaltedAndUnwritten : Prop :=
  ∀ (initRegs : Reg → Word) (initCondition : Flag) (regions : List Region) (mem : Memory)
    (device : Nat),
    (State.powerOn initRegs initCondition regions mem device).halted = true ∧
    readReg 0 (State.powerOn initRegs initCondition regions mem device) = 0 ∧
    (∀ r : Reg, r ≠ 0 →
      isWritten r (State.powerOn initRegs initCondition regions mem device) = false) ∧
    (State.powerOn initRegs initCondition regions mem device).cond = initCondition

/-- The model's own values at reset (log entries 1 to 4 and 10, DESIGN CHOICE), beside those of R138. -/
def Obligations.ResetIsPowerOnAtTheNamedValues : Prop :=
  State.reset = State.powerOn (fun _ => 0) .z Config.platform [] Config.deviceAtReset ∧
  (∀ r : Reg, readReg r State.reset = 0) ∧
  ∀ a : Word, isStorage a State.reset = true ∧ readWord a State.reset = 0

/-- The invariant holds at power-on, whatever the parameters, for a memory in its canonical form. -/
def Obligations.PowerOnMeetsTheInvariant : Prop :=
  ∀ (initRegs : Reg → Word) (initCondition : Flag) (regions : List Region) (mem : Memory)
    (device : Nat), mem.wf → Inv (State.powerOn initRegs initCondition regions mem device)

/-- R41's invariant, with the canonical form of memory, is kept by every step. -/
def Obligations.EveryStepKeepsTheInvariant : Prop :=
  ∀ s t : State, Inv s → step s = .next t → Inv t

/-- The invariant is kept by every host command. -/
def Obligations.EveryHostCommandKeepsTheInvariant : Prop :=
  ∀ (c : HostCommand) (s t : State), Inv s → hostCommand c s = .next t → Inv t

/-- Nothing the CORE does depends on the output streams or the observers (R96: "The core must support
zero listeners ... without behavior change"). -/
def Obligations.ObserversDoNotInfluenceTheCore : Prop :=
  ∀ s u : State, SameCore s u → SameAnswer SameCore (step s) (step u)

/-- A step that reads no unwritten register does not depend on what the model puts into unwritten
registers (log entry 1; R40, R142). -/
def Obligations.UnwrittenRegistersDoNotMatterUnlessRead : Prop :=
  ∀ s u : State, AgreeOnWritten s u → isWritten 15 s = true → readsOnlyWritten s = true →
    SameAnswer AgreeOnWritten (step s) (step u)
end

