-- ==== Sys2Proof/Laws/State.lean ====
section
/-! SUPPORT. What each update of the state does to each field, and reading registers and memory
through the updates. -/

namespace Sys2Proof.Machine

variable (s : State)

/-! ### writeReg -/

@[simp] theorem writeReg_regs (i : Reg) (v : Word) :
    (writeReg i v s).regs = putCell i v s.regs := rfl
@[simp] theorem writeReg_written (i : Reg) (v : Word) :
    (writeReg i v s).written = markWritten i s.written := rfl
@[simp] theorem writeReg_cond (i : Reg) (v : Word) : (writeReg i v s).cond = s.cond := rfl
@[simp] theorem writeReg_halted (i : Reg) (v : Word) : (writeReg i v s).halted = s.halted := rfl
@[simp] theorem writeReg_mem (i : Reg) (v : Word) : (writeReg i v s).mem = s.mem := rfl
@[simp] theorem writeReg_regions (i : Reg) (v : Word) : (writeReg i v s).regions = s.regions := rfl
@[simp] theorem writeReg_device (i : Reg) (v : Word) : (writeReg i v s).device = s.device := rfl
@[simp] theorem writeReg_observers (i : Reg) (v : Word) :
    (writeReg i v s).observers = s.observers := rfl
@[simp] theorem writeReg_trace (i : Reg) (v : Word) : (writeReg i v s).trace = s.trace := rfl
@[simp] theorem writeReg_bus (i : Reg) (v : Word) : (writeReg i v s).bus = s.bus := rfl

/-! ### storeWord -/

@[simp] theorem storeWord_regs (a v : Word) : (storeWord a v s).regs = s.regs := rfl
@[simp] theorem storeWord_written (a v : Word) : (storeWord a v s).written = s.written := rfl
@[simp] theorem storeWord_cond (a v : Word) : (storeWord a v s).cond = s.cond := rfl
@[simp] theorem storeWord_halted (a v : Word) : (storeWord a v s).halted = s.halted := rfl
@[simp] theorem storeWord_mem (a v : Word) : (storeWord a v s).mem = s.mem.write a.toNat v := rfl
@[simp] theorem storeWord_regions (a v : Word) : (storeWord a v s).regions = s.regions := rfl
@[simp] theorem storeWord_device (a v : Word) : (storeWord a v s).device = s.device := rfl
@[simp] theorem storeWord_observers (a v : Word) : (storeWord a v s).observers = s.observers := rfl
@[simp] theorem storeWord_trace (a v : Word) : (storeWord a v s).trace = s.trace := rfl
@[simp] theorem storeWord_bus (a v : Word) : (storeWord a v s).bus = s.bus := rfl

/-! ### logAccess -/

@[simp] theorem logAccess_regs (k : AccessKind) (a v : Word) :
    (logAccess k a v s).regs = s.regs := rfl
@[simp] theorem logAccess_written (k : AccessKind) (a v : Word) :
    (logAccess k a v s).written = s.written := rfl
@[simp] theorem logAccess_cond (k : AccessKind) (a v : Word) :
    (logAccess k a v s).cond = s.cond := rfl
@[simp] theorem logAccess_halted (k : AccessKind) (a v : Word) :
    (logAccess k a v s).halted = s.halted := rfl
@[simp] theorem logAccess_mem (k : AccessKind) (a v : Word) : (logAccess k a v s).mem = s.mem := rfl
@[simp] theorem logAccess_regions (k : AccessKind) (a v : Word) :
    (logAccess k a v s).regions = s.regions := rfl
@[simp] theorem logAccess_device (k : AccessKind) (a v : Word) :
    (logAccess k a v s).device = s.device := rfl
@[simp] theorem logAccess_observers (k : AccessKind) (a v : Word) :
    (logAccess k a v s).observers = s.observers := rfl
@[simp] theorem logAccess_trace (k : AccessKind) (a v : Word) :
    (logAccess k a v s).trace = s.trace := rfl
@[simp] theorem logAccess_bus (k : AccessKind) (a v : Word) :
    (logAccess k a v s).bus = { kind := k, addr := a, word := v } :: s.bus := rfl

/-! ### takeFault -/

@[simp] theorem takeFault_regs : (takeFault s).regs = s.regs := rfl
@[simp] theorem takeFault_written : (takeFault s).written = s.written := rfl
@[simp] theorem takeFault_cond : (takeFault s).cond = .v := rfl
@[simp] theorem takeFault_halted : (takeFault s).halted = true := rfl
@[simp] theorem takeFault_mem : (takeFault s).mem = s.mem := rfl
@[simp] theorem takeFault_regions : (takeFault s).regions = s.regions := rfl
@[simp] theorem takeFault_device : (takeFault s).device = s.device := rfl
@[simp] theorem takeFault_observers : (takeFault s).observers = s.observers := rfl
@[simp] theorem takeFault_trace : (takeFault s).trace = s.trace := rfl
@[simp] theorem takeFault_bus : (takeFault s).bus = s.bus := rfl

/-! ### enterHalted -/

@[simp] theorem enterHalted_regs : (enterHalted s).regs = s.regs := rfl
@[simp] theorem enterHalted_written : (enterHalted s).written = s.written := rfl
@[simp] theorem enterHalted_cond : (enterHalted s).cond = s.cond := rfl
@[simp] theorem enterHalted_halted : (enterHalted s).halted = true := rfl
@[simp] theorem enterHalted_mem : (enterHalted s).mem = s.mem := rfl
@[simp] theorem enterHalted_regions : (enterHalted s).regions = s.regions := rfl
@[simp] theorem enterHalted_device : (enterHalted s).device = s.device := rfl
@[simp] theorem enterHalted_observers : (enterHalted s).observers = s.observers := rfl
@[simp] theorem enterHalted_trace : (enterHalted s).trace = s.trace := rfl
@[simp] theorem enterHalted_bus : (enterHalted s).bus = s.bus := rfl

/-! ### startAt -/

@[simp] theorem startAt_regs (a : Word) : (startAt a s).regs = putCell pcReg a s.regs := rfl
@[simp] theorem startAt_written (a : Word) :
    (startAt a s).written = markWritten pcReg s.written := rfl
@[simp] theorem startAt_cond (a : Word) : (startAt a s).cond = s.cond := rfl
@[simp] theorem startAt_halted (a : Word) : (startAt a s).halted = false := rfl
@[simp] theorem startAt_mem (a : Word) : (startAt a s).mem = s.mem := rfl
@[simp] theorem startAt_regions (a : Word) : (startAt a s).regions = s.regions := rfl
@[simp] theorem startAt_device (a : Word) : (startAt a s).device = s.device := rfl
@[simp] theorem startAt_observers (a : Word) : (startAt a s).observers = s.observers := rfl
@[simp] theorem startAt_trace (a : Word) : (startAt a s).trace = s.trace := rfl
@[simp] theorem startAt_bus (a : Word) : (startAt a s).bus = s.bus := rfl

/-! ### skip -/

@[simp] theorem skip_regs : (skip s).regs = putCell pcReg (nextAddr (pcOf s)) s.regs := rfl
@[simp] theorem skip_written : (skip s).written = markWritten pcReg s.written := rfl
@[simp] theorem skip_cond : (skip s).cond = s.cond := rfl
@[simp] theorem skip_halted : (skip s).halted = s.halted := rfl
@[simp] theorem skip_mem : (skip s).mem = s.mem := rfl
@[simp] theorem skip_regions : (skip s).regions = s.regions := rfl
@[simp] theorem skip_device : (skip s).device = s.device := rfl
@[simp] theorem skip_observers : (skip s).observers = s.observers := rfl
@[simp] theorem skip_trace : (skip s).trace = s.trace := rfl
@[simp] theorem skip_bus : (skip s).bus = s.bus := rfl

/-! ### emitTrace -/

@[simp] theorem emitTrace_regs (a w : Word) (i : Instr) : (emitTrace a w i s).regs = s.regs := rfl
@[simp] theorem emitTrace_written (a w : Word) (i : Instr) :
    (emitTrace a w i s).written = s.written := rfl
@[simp] theorem emitTrace_cond (a w : Word) (i : Instr) : (emitTrace a w i s).cond = s.cond := rfl
@[simp] theorem emitTrace_halted (a w : Word) (i : Instr) :
    (emitTrace a w i s).halted = s.halted := rfl
@[simp] theorem emitTrace_mem (a w : Word) (i : Instr) : (emitTrace a w i s).mem = s.mem := rfl
@[simp] theorem emitTrace_regions (a w : Word) (i : Instr) :
    (emitTrace a w i s).regions = s.regions := rfl
@[simp] theorem emitTrace_device (a w : Word) (i : Instr) :
    (emitTrace a w i s).device = s.device := rfl
@[simp] theorem emitTrace_observers (a w : Word) (i : Instr) :
    (emitTrace a w i s).observers = s.observers := rfl
@[simp] theorem emitTrace_trace (a w : Word) (i : Instr) :
    (emitTrace a w i s).trace = { addr := a, word := w, instr := i, subject := viewOf s, listeners := s.observers } :: s.trace := rfl
@[simp] theorem emitTrace_bus (a w : Word) (i : Instr) : (emitTrace a w i s).bus = s.bus := rfl

/-! ### takeEffect, afterRead and afterWrite -/

@[simp] theorem takeEffect_regs (d : MemAnswer) : (takeEffect d s).regs = s.regs := rfl
@[simp] theorem takeEffect_written (d : MemAnswer) : (takeEffect d s).written = s.written := rfl
@[simp] theorem takeEffect_cond (d : MemAnswer) : (takeEffect d s).cond = s.cond := rfl
@[simp] theorem takeEffect_halted (d : MemAnswer) : (takeEffect d s).halted = s.halted := rfl
@[simp] theorem takeEffect_regions (d : MemAnswer) : (takeEffect d s).regions = s.regions := rfl
@[simp] theorem takeEffect_observers (d : MemAnswer) : (takeEffect d s).observers = s.observers := rfl
@[simp] theorem takeEffect_trace (d : MemAnswer) : (takeEffect d s).trace = s.trace := rfl
@[simp] theorem takeEffect_bus (d : MemAnswer) : (takeEffect d s).bus = s.bus := rfl
@[simp] theorem takeEffect_mem (d : MemAnswer) :
    (takeEffect d s).mem = Memory.applyChanges d.changes s.mem := rfl
@[simp] theorem takeEffect_device (d : MemAnswer) : (takeEffect d s).device = d.state := rfl

@[simp] theorem afterRead_regs (c : Params) (a : Word) :
    (afterRead c a s).regs = s.regs := rfl
@[simp] theorem afterRead_written (c : Params) (a : Word) :
    (afterRead c a s).written = s.written := rfl
@[simp] theorem afterRead_cond (c : Params) (a : Word) :
    (afterRead c a s).cond = s.cond := rfl
@[simp] theorem afterRead_halted (c : Params) (a : Word) :
    (afterRead c a s).halted = s.halted := rfl
@[simp] theorem afterRead_regions (c : Params) (a : Word) :
    (afterRead c a s).regions = s.regions := rfl
@[simp] theorem afterRead_observers (c : Params) (a : Word) :
    (afterRead c a s).observers = s.observers := rfl
@[simp] theorem afterRead_trace (c : Params) (a : Word) :
    (afterRead c a s).trace = s.trace := rfl
@[simp] theorem afterRead_bus (c : Params) (a : Word) :
    (afterRead c a s).bus = s.bus := rfl
@[simp] theorem afterRead_mem (c : Params) (a : Word) :
    (afterRead c a s).mem = Memory.applyChanges (memRead c a s).changes s.mem := rfl
@[simp] theorem afterRead_device (c : Params) (a : Word) :
    (afterRead c a s).device = (memRead c a s).state := rfl

@[simp] theorem afterWrite_regs (c : Params) (a v : Word) :
    (afterWrite c a v s).regs = s.regs := rfl
@[simp] theorem afterWrite_written (c : Params) (a v : Word) :
    (afterWrite c a v s).written = s.written := rfl
@[simp] theorem afterWrite_cond (c : Params) (a v : Word) :
    (afterWrite c a v s).cond = s.cond := rfl
@[simp] theorem afterWrite_halted (c : Params) (a v : Word) :
    (afterWrite c a v s).halted = s.halted := rfl
@[simp] theorem afterWrite_regions (c : Params) (a v : Word) :
    (afterWrite c a v s).regions = s.regions := rfl
@[simp] theorem afterWrite_observers (c : Params) (a v : Word) :
    (afterWrite c a v s).observers = s.observers := rfl
@[simp] theorem afterWrite_trace (c : Params) (a v : Word) :
    (afterWrite c a v s).trace = s.trace := rfl
@[simp] theorem afterWrite_bus (c : Params) (a v : Word) :
    (afterWrite c a v s).bus = s.bus := rfl
@[simp] theorem afterWrite_mem (c : Params) (a v : Word) :
    (afterWrite c a v s).mem = Memory.applyChanges (memWrite c a v s).changes s.mem := rfl
@[simp] theorem afterWrite_device (c : Params) (a v : Word) :
    (afterWrite c a v s).device = (memWrite c a v s).state := rfl

/-! ### afterTrace -/

@[simp] theorem afterTrace_regs (c : Params) : (afterTrace c s).regs = s.regs := rfl
@[simp] theorem afterTrace_written (c : Params) : (afterTrace c s).written = s.written := rfl
@[simp] theorem afterTrace_cond (c : Params) : (afterTrace c s).cond = s.cond := rfl
@[simp] theorem afterTrace_halted (c : Params) : (afterTrace c s).halted = s.halted := rfl
@[simp] theorem afterTrace_regions (c : Params) : (afterTrace c s).regions = s.regions := rfl
@[simp] theorem afterTrace_observers (c : Params) : (afterTrace c s).observers = s.observers := rfl
@[simp] theorem afterTrace_mem (c : Params) :
    (afterTrace c s).mem = (afterRead c (pcOf s) s).mem := rfl
@[simp] theorem afterTrace_device (c : Params) :
    (afterTrace c s).device = (afterRead c (pcOf s) s).device := rfl
@[simp] theorem afterTrace_trace (c : Params) :
    (afterTrace c s).trace =
      { addr := pcOf s
        word := fetchWord c s
        instr := decode (fetchWord c s)
        subject := viewOf s
        listeners := s.observers } :: s.trace := rfl
@[simp] theorem afterTrace_bus (c : Params) :
    (afterTrace c s).bus = { kind := .fetch, addr := pcOf s, word := fetchWord c s } :: s.bus := rfl

/-! ### addObserver -/

@[simp] theorem addObserver_regs (n : Nat) : (addObserver n s).regs = s.regs := rfl
@[simp] theorem addObserver_written (n : Nat) : (addObserver n s).written = s.written := rfl
@[simp] theorem addObserver_cond (n : Nat) : (addObserver n s).cond = s.cond := rfl
@[simp] theorem addObserver_halted (n : Nat) : (addObserver n s).halted = s.halted := rfl
@[simp] theorem addObserver_mem (n : Nat) : (addObserver n s).mem = s.mem := rfl
@[simp] theorem addObserver_regions (n : Nat) : (addObserver n s).regions = s.regions := rfl
@[simp] theorem addObserver_device (n : Nat) : (addObserver n s).device = s.device := rfl
@[simp] theorem addObserver_observers (n : Nat) :
    (addObserver n s).observers = s.observers ++ [n] := rfl
@[simp] theorem addObserver_trace (n : Nat) : (addObserver n s).trace = s.trace := rfl
@[simp] theorem addObserver_bus (n : Nat) : (addObserver n s).bus = s.bus := rfl

/-! ### removeObserver -/

@[simp] theorem removeObserver_regs (n : Nat) : (removeObserver n s).regs = s.regs := rfl
@[simp] theorem removeObserver_written (n : Nat) : (removeObserver n s).written = s.written := rfl
@[simp] theorem removeObserver_cond (n : Nat) : (removeObserver n s).cond = s.cond := rfl
@[simp] theorem removeObserver_halted (n : Nat) : (removeObserver n s).halted = s.halted := rfl
@[simp] theorem removeObserver_mem (n : Nat) : (removeObserver n s).mem = s.mem := rfl
@[simp] theorem removeObserver_regions (n : Nat) : (removeObserver n s).regions = s.regions := rfl
@[simp] theorem removeObserver_device (n : Nat) : (removeObserver n s).device = s.device := rfl
@[simp] theorem removeObserver_observers (n : Nat) :
    (removeObserver n s).observers = s.observers.filter (fun k => k != n) := rfl
@[simp] theorem removeObserver_trace (n : Nat) : (removeObserver n s).trace = s.trace := rfl
@[simp] theorem removeObserver_bus (n : Nat) : (removeObserver n s).bus = s.bus := rfl

/-! ### recordFlag -/

@[simp] theorem recordFlag_regs (f : Flag) : (recordFlag f s).regs = s.regs := by
  unfold recordFlag; split <;> rfl
@[simp] theorem recordFlag_written (f : Flag) : (recordFlag f s).written = s.written := by
  unfold recordFlag; split <;> rfl
@[simp] theorem recordFlag_cond (f : Flag) : (recordFlag f s).cond = f := by
  unfold recordFlag; split <;> simp_all
@[simp] theorem recordFlag_halted (f : Flag) : (recordFlag f s).halted = (s.halted || f == .v) := by
  cases f <;> simp [recordFlag]
@[simp] theorem recordFlag_mem (f : Flag) : (recordFlag f s).mem = s.mem := by
  unfold recordFlag; split <;> rfl
@[simp] theorem recordFlag_regions (f : Flag) : (recordFlag f s).regions = s.regions := by
  unfold recordFlag; split <;> rfl
@[simp] theorem recordFlag_device (f : Flag) : (recordFlag f s).device = s.device := by
  unfold recordFlag; split <;> rfl
@[simp] theorem recordFlag_observers (f : Flag) : (recordFlag f s).observers = s.observers := by
  unfold recordFlag; split <;> rfl
@[simp] theorem recordFlag_trace (f : Flag) : (recordFlag f s).trace = s.trace := by
  unfold recordFlag; split <;> rfl
@[simp] theorem recordFlag_bus (f : Flag) : (recordFlag f s).bus = s.bus := by
  unfold recordFlag; split <;> rfl

/-! ### The advance at the hardware's parameter values -/

@[simp] theorem preAdvance_hardware (a : Word) : preAdvance hardware a s = s := rfl
@[simp] theorem postAdvance_hardware (a : Word) (wrote : Bool) :
    postAdvance hardware a wrote s = if wrote then s else writeReg pcReg (nextAddr a) s := rfl

/-! ### Reading registers through the updates -/

@[simp] theorem readReg_zero : readReg 0 s = 0 := rfl
@[simp] theorem isWritten_zero : isWritten 0 s = true := rfl

/-- A register reads the last value written to it; register 0 reads 0. -/
theorem readReg_writeReg (i j : Reg) (v : Word) :
    readReg i (writeReg j v s) = if i = 0 then 0 else if i = j then v else readReg i s := by
  unfold readReg writeReg putCell
  by_cases hi : i = 0
  · simp [hi]
  · by_cases hj : j = 0
    · simp_all
    · simp [hi, hj, Vector.getElem_set, Fin.ext_iff, eq_comm]

@[simp] theorem readReg_writeReg_self (i : Reg) (v : Word) :
    readReg i (writeReg i v s) = if i = 0 then 0 else v := by simp [readReg_writeReg]

@[simp] theorem readReg_writeReg_ne {i j : Reg} (v : Word) (h : i ≠ j) :
    readReg i (writeReg j v s) = readReg i s := by
  by_cases hi : i = 0
  · simp [hi]
  · simp [readReg_writeReg, hi, h]

theorem isWritten_writeReg (i j : Reg) (v : Word) :
    isWritten i (writeReg j v s) = (i == j || isWritten i s) := by
  unfold isWritten writeReg markWritten
  by_cases hi : i = 0
  · simp [hi]
  · by_cases hj : j = 0
    · simp_all
    · by_cases h : i = j
      · simp [h, hj]
      · have hv : ¬(j : Nat) = i := fun e => h (Fin.ext e.symm)
        simp [h, hj, hv]

theorem pcOf_writeReg (j : Reg) (v : Word) :
    pcOf (writeReg j v s) = if j = pcReg then v else pcOf s := by
  unfold pcOf
  rw [readReg_writeReg]
  by_cases h : j = pcReg <;> simp_all [pcReg, eq_comm]

@[simp] theorem readReg_storeWord (r : Reg) (a v : Word) : readReg r (storeWord a v s) = readReg r s := rfl
@[simp] theorem isWritten_storeWord (r : Reg) (a v : Word) : isWritten r (storeWord a v s) = isWritten r s := rfl
@[simp] theorem pcOf_storeWord (a v : Word) : pcOf (storeWord a v s) = pcOf s := rfl
@[simp] theorem readReg_logAccess (r : Reg) (k : AccessKind) (a v : Word) : readReg r (logAccess k a v s) = readReg r s := rfl
@[simp] theorem isWritten_logAccess (r : Reg) (k : AccessKind) (a v : Word) : isWritten r (logAccess k a v s) = isWritten r s := rfl
@[simp] theorem pcOf_logAccess (k : AccessKind) (a v : Word) : pcOf (logAccess k a v s) = pcOf s := rfl
@[simp] theorem readReg_takeFault (r : Reg) : readReg r (takeFault s) = readReg r s := rfl
@[simp] theorem isWritten_takeFault (r : Reg) : isWritten r (takeFault s) = isWritten r s := rfl
@[simp] theorem pcOf_takeFault : pcOf (takeFault s) = pcOf s := rfl
@[simp] theorem readReg_enterHalted (r : Reg) : readReg r (enterHalted s) = readReg r s := rfl
@[simp] theorem isWritten_enterHalted (r : Reg) : isWritten r (enterHalted s) = isWritten r s := rfl
@[simp] theorem pcOf_enterHalted : pcOf (enterHalted s) = pcOf s := rfl
@[simp] theorem readReg_emitTrace (r : Reg) (a w : Word) (i : Instr) : readReg r (emitTrace a w i s) = readReg r s := rfl
@[simp] theorem isWritten_emitTrace (r : Reg) (a w : Word) (i : Instr) : isWritten r (emitTrace a w i s) = isWritten r s := rfl
@[simp] theorem pcOf_emitTrace (a w : Word) (i : Instr) : pcOf (emitTrace a w i s) = pcOf s := rfl
@[simp] theorem readReg_afterRead (r : Reg) (c : Params) (a : Word) :
    readReg r (afterRead c a s) = readReg r s := rfl
@[simp] theorem readReg_afterWrite (r : Reg) (c : Params) (a v : Word) :
    readReg r (afterWrite c a v s) = readReg r s := rfl
@[simp] theorem readReg_afterTrace (r : Reg) (c : Params) :
    readReg r (afterTrace c s) = readReg r s := rfl
@[simp] theorem readReg_addObserver (r : Reg) (n : Nat) : readReg r (addObserver n s) = readReg r s := rfl
@[simp] theorem isWritten_afterRead (r : Reg) (c : Params) (a : Word) :
    isWritten r (afterRead c a s) = isWritten r s := rfl
@[simp] theorem isWritten_afterWrite (r : Reg) (c : Params) (a v : Word) :
    isWritten r (afterWrite c a v s) = isWritten r s := rfl
@[simp] theorem isWritten_afterTrace (r : Reg) (c : Params) :
    isWritten r (afterTrace c s) = isWritten r s := rfl
@[simp] theorem isWritten_addObserver (r : Reg) (n : Nat) : isWritten r (addObserver n s) = isWritten r s := rfl
@[simp] theorem pcOf_afterRead (c : Params) (a : Word) :
    pcOf (afterRead c a s) = pcOf s := rfl
@[simp] theorem pcOf_afterWrite (c : Params) (a v : Word) :
    pcOf (afterWrite c a v s) = pcOf s := rfl
@[simp] theorem pcOf_afterTrace (c : Params) :
    pcOf (afterTrace c s) = pcOf s := rfl
@[simp] theorem pcOf_addObserver (n : Nat) : pcOf (addObserver n s) = pcOf s := rfl
@[simp] theorem readReg_removeObserver (r : Reg) (n : Nat) : readReg r (removeObserver n s) = readReg r s := rfl
@[simp] theorem isWritten_removeObserver (r : Reg) (n : Nat) : isWritten r (removeObserver n s) = isWritten r s := rfl
@[simp] theorem pcOf_removeObserver (n : Nat) : pcOf (removeObserver n s) = pcOf s := rfl
@[simp] theorem readReg_recordFlag (r : Reg) (f : Flag) : readReg r (recordFlag f s) = readReg r s := by
  unfold recordFlag; split <;> rfl
@[simp] theorem isWritten_recordFlag (r : Reg) (f : Flag) : isWritten r (recordFlag f s) = isWritten r s := by
  unfold recordFlag; split <;> rfl
@[simp] theorem pcOf_recordFlag (f : Flag) : pcOf (recordFlag f s) = pcOf s := readReg_recordFlag s pcReg f
@[simp] theorem pcOf_startAt (a : Word) : pcOf (startAt a s) = a := by
  change pcOf (writeReg pcReg a s) = a
  simp [pcOf_writeReg]
@[simp] theorem pcOf_skip : pcOf (skip s) = nextAddr (pcOf s) := by simp [skip, pcOf_writeReg]

/-! ### Reading memory through the updates -/

@[simp] theorem readWord_writeReg (x : Word) (i : Reg) (v : Word) : readWord x (writeReg i v s) = readWord x s := rfl
@[simp] theorem readWord_logAccess (x : Word) (k : AccessKind) (a v : Word) : readWord x (logAccess k a v s) = readWord x s := rfl
@[simp] theorem readWord_takeFault (x : Word) : readWord x (takeFault s) = readWord x s := rfl
@[simp] theorem readWord_enterHalted (x : Word) : readWord x (enterHalted s) = readWord x s := rfl
@[simp] theorem readWord_startAt (x : Word) (a : Word) : readWord x (startAt a s) = readWord x s := rfl
@[simp] theorem readWord_skip (x : Word) : readWord x (skip s) = readWord x s := rfl
@[simp] theorem readWord_emitTrace (x : Word) (a w : Word) (i : Instr) : readWord x (emitTrace a w i s) = readWord x s := rfl
@[simp] theorem readWord_addObserver (x : Word) (n : Nat) : readWord x (addObserver n s) = readWord x s := rfl
@[simp] theorem readWord_removeObserver (x : Word) (n : Nat) : readWord x (removeObserver n s) = readWord x s := rfl
@[simp] theorem readWord_recordFlag (x : Word) (f : Flag) : readWord x (recordFlag f s) = readWord x s := by
  simp [readWord]

end Sys2Proof.Machine
end

