-- ==== Sys2Proof/Laws/Memory.lean ====
section
/-! SUPPORT. The laws of memory: read after write, and that every memory operation keeps the canonical
form. -/

namespace Sys2Proof.Machine

theorem Memory.read_eq_unloaded_of_ne {m : Memory} {a : Nat} (h : ∀ c ∈ m, c.1 ≠ a) :
    m.read a = Config.unloadedWord := by
  induction m with
  | nil => rfl
  | cons c m ih =>
    have hc : c.1 ≠ a := h c (by simp)
    simp only [Memory.read, if_neg hc]
    exact ih fun d hd => h d (by simp [hd])

theorem Memory.read_append_of_ne {l m : Memory} {a : Nat} (h : ∀ c ∈ l, c.1 ≠ a) :
    Memory.read (l ++ m) a = m.read a := by
  induction l with
  | nil => rfl
  | cons c l ih =>
    have hc : c.1 ≠ a := h c (by simp)
    simp only [List.cons_append, Memory.read, if_neg hc]
    exact ih fun d hd => h d (by simp [hd])

theorem Memory.read_append_unloaded {l m : Memory} {a : Nat} (h : ∀ c ∈ m, c.1 ≠ a) :
    Memory.read (l ++ m) a = l.read a := by
  induction l with
  | nil => exact Memory.read_eq_unloaded_of_ne h
  | cons c l ih =>
    simp only [List.cons_append, Memory.read]
    split
    · rfl
    · exact ih

theorem Memory.read_filter {m : Memory} {a : Nat} {p : Nat × Word → Bool}
    (h : ∀ c : Nat × Word, c.1 = a → p c = true) : Memory.read (m.filter p) a = m.read a := by
  induction m with
  | nil => rfl
  | cons c m ih =>
    by_cases hp : p c = true
    · simp only [List.filter_cons_of_pos hp, Memory.read, ih]
    · have hc : c.1 ≠ a := fun hc => hp (h c hc)
      simp only [List.filter_cons_of_neg hp, Memory.read, if_neg hc, ih]

theorem Memory.cell_addr {a : Nat} {v : Word} : ∀ c ∈ Memory.cell a v, c.1 = a := by
  intro c hc
  unfold Memory.cell at hc
  split at hc <;> simp_all

/-- The address written reads as the word written. -/
theorem Memory.read_write_self (m : Memory) (a : Nat) (v : Word) : (m.write a v).read a = v := by
  unfold Memory.write
  rw [List.append_assoc, Memory.read_append_of_ne (by simp; omega),
    Memory.read_append_unloaded (by simp; omega)]
  unfold Memory.cell
  split <;> simp_all [Memory.read]

/-- Every other address reads as before. -/
theorem Memory.read_write_ne (m : Memory) {a b : Nat} (v : Word) (h : b ≠ a) :
    (m.write a v).read b = m.read b := by
  unfold Memory.write
  rcases Nat.lt_or_gt_of_ne h with hlt | hgt
  · rw [List.append_assoc, Memory.read_append_unloaded, Memory.read_filter]
    · intro c hc; simp [hc, hlt]
    · intro c hc
      rcases List.mem_append.mp hc with hc | hc
      · have := Memory.cell_addr c hc; omega
      · simp at hc; omega
  · rw [Memory.read_append_of_ne, Memory.read_filter]
    · intro c hc; simp [hc, hgt]
    · intro c hc
      rcases List.mem_append.mp hc with hc | hc
      · simp at hc; omega
      · have := Memory.cell_addr c hc; omega

/-- A write keeps the canonical form. -/
theorem Memory.wf_write {m : Memory} (hm : m.wf) {a : Nat} (ha : a < 2 ^ 32) (v : Word) :
    (m.write a v).wf := by
  obtain ⟨hsort, hcell⟩ := hm
  refine ⟨?_, ?_⟩
  · unfold Memory.write
    refine List.pairwise_append.mpr ⟨List.pairwise_append.mpr ⟨hsort.filter _, ?_, ?_⟩,
      hsort.filter _, ?_⟩
    · unfold Memory.cell; split <;> simp
    · intro c hc d hd
      have := Memory.cell_addr d hd
      simp at hc; omega
    · intro c hc d hd
      simp at hd
      rcases List.mem_append.mp hc with hc | hc
      · simp at hc; omega
      · have := Memory.cell_addr c hc; omega
  · intro c hc
    simp only [Memory.write, List.mem_append, List.mem_filter] at hc
    rcases hc with (hc | hc) | hc
    · exact hcell c hc.1
    · unfold Memory.cell at hc
      split at hc
      · simp at hc
      · simp only [List.mem_singleton] at hc
        subst hc
        exact ⟨ha, by assumption⟩
    · exact hcell c hc.1

theorem Memory.wf_nil : Memory.wf [] := ⟨List.Pairwise.nil, by simp⟩

/-- The memory after reset has the canonical form. -/
theorem reset_mem_wf : State.reset.mem.wf := Memory.wf_nil

/-- A word stored reads back; every other word reads as before. -/
theorem readWord_storeWord (s : State) (a b v : Word) :
    readWord b (storeWord a v s) = if b = a then v else readWord b s := by
  unfold readWord storeWord
  by_cases h : b = a
  · simp [h, Memory.read_write_self]
  · have hne : b.toNat ≠ a.toNat := fun e => h (BitVec.eq_of_toNat_eq e)
    simp [h, Memory.read_write_ne _ _ hne]

theorem storeWord_wf {s : State} (h : s.mem.wf) (a v : Word) : (storeWord a v s).mem.wf :=
  Memory.wf_write h a.isLt v

/-! ### Accesses: storage and devices -/

theorem isStorage_iff (a : Word) (s : State) :
    isStorage a s = true ↔ kindAt a s.regions = some .storage := by simp [isStorage]

theorem isStorage_device {a : Word} {s : State} (h : kindAt a s.regions = some .device) :
    isStorage a s = false := by simp [isStorage, h]

theorem memRead_storage (c : Params) {a : Word} {s : State} (h : isStorage a s = true) :
    memRead c a s = { word := readWord a s, state := s.device, changes := [] } := by
  simp [memRead, h]

theorem memRead_device (c : Params) {a : Word} {s : State} (h : kindAt a s.regions = some .device) :
    memRead c a s = c.device.read s.device a (readWord a s) := by
  simp [memRead, isStorage_device h]

theorem memWrite_storage (c : Params) {a v : Word} {s : State} (h : isStorage a s = true) :
    memWrite c a v s = { word := v, state := s.device, changes := [(a, v)] } := by
  simp [memWrite, h]

theorem memWrite_device (c : Params) {a v : Word} {s : State}
    (h : kindAt a s.regions = some .device) : memWrite c a v s = c.device.write s.device a v := by
  simp [memWrite, isStorage_device h]

theorem wordRead_storage (c : Params) {a : Word} {s : State} (h : isStorage a s = true) :
    wordRead c a s = readWord a s := by rw [wordRead, memRead_storage c h]

theorem afterRead_storage (c : Params) {a : Word} {s : State} (h : isStorage a s = true) :
    afterRead c a s = s := by rw [afterRead, memRead_storage c h]; rfl

theorem afterWrite_storage (c : Params) {a v : Word} {s : State} (h : isStorage a s = true) :
    afterWrite c a v s = storeWord a v s := by rw [afterWrite, memWrite_storage c h]; rfl

theorem Memory.wf_applyChanges (cs : List (Word × Word)) {m : Memory} (hm : m.wf) :
    (Memory.applyChanges cs m).wf := by
  induction cs generalizing m with
  | nil => exact hm
  | cons c cs ih => exact ih (Memory.wf_write hm c.1.isLt c.2)

/-- What an address reads as after some words were set: the last word set there, else as before. -/
theorem Memory.read_applyChanges (cs : List (Word × Word)) (m : Memory) (a : Word) :
    (Memory.applyChanges cs m).read a.toNat =
      cs.foldl (fun w c => if c.1 = a then c.2 else w) (m.read a.toNat) := by
  induction cs generalizing m with
  | nil => rfl
  | cons c cs ih =>
    simp only [Memory.applyChanges, List.foldl_cons, ih]
    by_cases h : c.1 = a
    · simp [h, Memory.read_write_self]
    · have hne : a.toNat ≠ c.1.toNat := fun e => h (BitVec.eq_of_toNat_eq e.symm)
      simp [h, Memory.read_write_ne _ _ hne]

theorem takeEffect_wf (d : MemAnswer) {s : State} (h : s.mem.wf) : (takeEffect d s).mem.wf :=
  Memory.wf_applyChanges _ h

theorem afterRead_wf (c : Params) (a : Word) {s : State} (h : s.mem.wf) :
    (afterRead c a s).mem.wf := takeEffect_wf _ h

theorem afterWrite_wf (c : Params) (a v : Word) {s : State} (h : s.mem.wf) :
    (afterWrite c a v s).mem.wf := takeEffect_wf _ h

theorem isStorage_congr (a : Word) {s u : State} (hr : u.regions = s.regions) :
    isStorage a u = isStorage a s := by simp [isStorage, hr]

/-- What an access does depends on the admitted ranges, the memory and the devices' state alone. -/
theorem memRead_congr (c : Params) (a : Word) {s u : State} (hr : u.regions = s.regions)
    (hm : u.mem = s.mem) (hd : u.device = s.device) : memRead c a u = memRead c a s := by
  simp [memRead, isStorage_congr a hr, readWord, hm, hd]

theorem memWrite_congr (c : Params) (a v : Word) {s u : State} (hr : u.regions = s.regions)
    (hd : u.device = s.device) : memWrite c a v u = memWrite c a v s := by
  simp [memWrite, isStorage_congr a hr, hd]

end Sys2Proof.Machine
end

