-- ==== Sys2Proof/Laws/Ops.lean ====
section
/-! SUPPORT. One lemma for each shared operation that says everything it can answer. -/

namespace Sys2Proof.Machine

theorem next_eq_next {s t : State} : (Host.Outcome.next s : Outcome) = .next t ↔ t = s :=
  ⟨fun h => (Host.Outcome.next.inj h).symm, fun h => h ▸ rfl⟩

/-- An access answers a next state only where the memory admits the address, and then it is `k`'s. -/
theorem access_next {a : Word} {s t : State} {k : Outcome} :
    access a s k = .next t ↔ kindAt a s.regions ≠ none ∧ k = .next t := by
  unfold access
  split <;> simp_all

theorem access_admitted {a : Word} {s : State} {k : Outcome} (h : kindAt a s.regions ≠ none) :
    access a s k = k := by
  unfold access
  split <;> simp_all

theorem isStorage_admitted {a : Word} {s : State} (h : isStorage a s = true) :
    kindAt a s.regions ≠ none := by simp [(isStorage_iff a s).mp h]

theorem access_absent {a : Word} {s : State} {k : Outcome} (h : kindAt a s.regions = none) :
    access a s k = .fault (.memoryRange a) := by simp [access, h]

/-- The condition test: a skip, or the instruction's effect. -/
theorem conditional_next {f : Fields} {s t : State} {k : Outcome} :
    conditional f s k = .next t ↔
      (passes s.cond f.mask = true ∧ k = .next t) ∨
      (passes s.cond f.mask = false ∧ t = skip s) := by
  unfold conditional
  split <;> simp_all only [next_eq_next, true_and, false_and, or_false, false_or, reduceCtorEq, Bool.not_eq_true]

theorem conditional_pass {f : Fields} {s : State} {k : Outcome}
    (h : passes s.cond f.mask = true) : conditional f s k = k := by simp [conditional, h]

theorem conditional_skip {f : Fields} {s : State} {k : Outcome}
    (h : passes s.cond f.mask = false) : conditional f s k = .next (skip s) := by
  simp [conditional, h]

/-- The state an executed arithmetic instruction leaves, at the hardware's parameter values. -/
def arithResult (op : Opcode) (f : Fields) (s : State) : State :=
  postAdvance hardware (pcOf s) (f.t == pcReg)
    (writeReg f.t (compute hardware op f s).1 (recordFlag (compute hardware op f s).2 s))

/-- The state an executed LOAD leaves. -/
def loadResult (f : Fields) (s : State) : State :=
  postAdvance hardware (pcOf s) (f.t == pcReg)
    (writeReg f.t (wordRead hardware (compute hardware .load f s).1 s)
      (logAccess .load (compute hardware .load f s).1
        (wordRead hardware (compute hardware .load f s).1 s)
        (afterRead hardware (compute hardware .load f s).1
          (recordFlag (compute hardware .load f s).2 s))))

/-- The state an executed STORE leaves. -/
def storeResult (f : Fields) (s : State) : State :=
  writeReg pcReg (nextAddr (pcOf s))
    (logAccess .store (compute hardware .store f s).1 (readReg f.t s)
      (afterWrite hardware (compute hardware .store f s).1 (readReg f.t s)
        (recordFlag (compute hardware .store f s).2 s)))

/-- The state an executed HALT leaves. -/
def haltResult (f : Fields) (s : State) : State :=
  writeReg pcReg (nextAddr (pcOf s)) (enterHalted (recordFlag (compute hardware .halt f s).2 s))

/-- The state an executed INVALID leaves. -/
def invalidResult (f : Fields) (s : State) : State :=
  writeReg pcReg (nextAddr (pcOf s)) (recordFlag (compute hardware .invalid f s).2 s)

/-- The state an executed instruction leaves, at the hardware's parameter values. -/
def resultOf : Instr → State → State
  | .halt f => haltResult f
  | .load f => loadResult f
  | .store f => storeResult f
  | .add f => arithResult .add f
  | .sub f => arithResult .sub f
  | .mul f => arithResult .mul f
  | .div f => arithResult .div f
  | .invalid7 f => invalidResult f
  | .invalidHigh f => invalidResult f

/-- The data address an executed instruction accesses: the effective address of a LOAD or STORE. -/
def dataAddr : Instr → State → Option Word
  | .load f, s => some (compute hardware .load f s).1
  | .store f, s => some (compute hardware .store f s).1
  | .halt _, _ => none
  | .add _, _ => none
  | .sub _, _ => none
  | .mul _, _ => none
  | .div _, _ => none
  | .invalid7 _, _ => none
  | .invalidHigh _, _ => none

/-- Whatever the parameters, an instruction whose test fails is a skip. -/
theorem execUnder_skip {c : Params} {i : Instr} {s : State}
    (h : passes s.cond i.fields.mask = false) : execUnder c i s = .next (skip s) := by
  cases i <;> exact conditional_skip h

/-- At the hardware's parameter values the parametric meaning is the model's. -/
theorem execUnder_hardware (i : Instr) (s : State) : execUnder hardware i s = exec i s := by
  cases i <;> rfl

theorem exec_skip {i : Instr} {s : State} (h : passes s.cond i.fields.mask = false) :
    exec i s = .next (skip s) := execUnder_hardware i s ▸ execUnder_skip h

/-- What an executed instruction answers: its result, for LOAD and STORE behind the access. -/
theorem exec_pass {i : Instr} {s : State} (h : passes s.cond i.fields.mask = true) :
    exec i s = match dataAddr i s with
      | some a => access a s (.next (resultOf i s))
      | none => .next (resultOf i s) := by
  cases i <;> exact conditional_pass h

/-- Everything an instruction can answer as a next state: a skip, or the state its executed form
leaves, for LOAD and STORE where the memory admits the address. -/
theorem exec_next {i : Instr} {s t : State} :
    exec i s = .next t ↔
      (passes s.cond i.fields.mask = false ∧ t = skip s) ∨
      (passes s.cond i.fields.mask = true ∧ (∀ a, dataAddr i s = some a → kindAt a s.regions ≠ none) ∧
        t = resultOf i s) := by
  cases hp : passes s.cond i.fields.mask with
  | false => simp [exec_skip hp, eq_comm (a := t)]
  | true =>
    rw [exec_pass hp]
    cases ha : dataAddr i s with
    | none => simp [eq_comm (a := t)]
    | some a => simp [access_next, eq_comm (a := t)]

/-- Everything a step can answer as a next state: nothing in HALTED; otherwise what the fetched
instruction does in the state with the fetch made and the trace event emitted. -/
theorem step_next {s t : State} (h : step s = .next t) :
    (s.halted = true ∧ t = s) ∨
    (s.halted = false ∧ kindAt (pcOf s) s.regions ≠ none ∧
      exec (decode (fetchWord hardware s)) (afterTrace hardware s) = .next t) := by
  unfold step cycle at h
  split at h
  · exact .inl ⟨by assumption, next_eq_next.mp h⟩
  · obtain ⟨hs, ht⟩ := access_next.mp h
    exact .inr ⟨by simpa using ‹¬s.halted = true›, hs, ht⟩

/-- Everything a host command can answer as a next state: it is given in HALTED, and does one of four
things. -/
theorem hostCommand_next {c : HostCommand} {s t : State} (h : hostCommand c s = .next t) :
    s.halted = true ∧
    ((∃ a v, c = .loadWord a v ∧ kindAt a s.regions ≠ none ∧ t = storeWord a v s) ∨
     (∃ n, c = .addObserver n ∧ t = addObserver n s) ∨
     (∃ n, c = .removeObserver n ∧ t = removeObserver n s) ∨
     (∃ a, c = .start a ∧ t = startAt a s)) := by
  unfold hostCommand whileHalted at h
  split at h
  · refine ⟨by assumption, ?_⟩
    cases c with
    | loadWord a v =>
      obtain ⟨hs, ht⟩ := access_next.mp h
      exact .inl ⟨a, v, rfl, hs, next_eq_next.mp ht⟩
    | addObserver n => exact .inr (.inl ⟨n, rfl, next_eq_next.mp h⟩)
    | removeObserver n => exact .inr (.inr (.inl ⟨n, rfl, next_eq_next.mp h⟩))
    | start a => exact .inr (.inr (.inr ⟨a, rfl, next_eq_next.mp h⟩))
  · simp at h

end Sys2Proof.Machine
end

