-- ==== Sys2Proof/Laws/Alu.lean ====
section
/-! SUPPORT. What the arithmetic unit answers, and the ALU call of each instruction at the hardware's
parameter values. -/

namespace Sys2Proof.Machine

theorem flagOf_ne_v (v : Word) : flagOf v ≠ .v := by
  unfold flagOf; split <;> [simp; split <;> simp]

theorem settle_wrap (e : Int) : settle .wrap e = (wrap e, flagOf (wrap e)) := by
  simp [settle]

/-- Wrapping a word's own value gives the word. -/
@[simp] theorem wrap_toInt (w : Word) : wrap w.toInt = w := BitVec.ofInt_toInt

theorem wrap_add (a b : Int) : wrap (a + b) = wrap a + wrap b := BitVec.ofInt_add a b

theorem wrap_mul (a b : Int) : wrap (a * b) = wrap a * wrap b := BitVec.ofInt_mul a b

theorem wrap_neg (a : Int) : wrap (-a) = -wrap a := BitVec.ofInt_neg

theorem wrap_sub (a b : Int) : wrap (a - b) = wrap a - wrap b := by
  rw [Int.sub_eq_add_neg, wrap_add, wrap_neg, BitVec.sub_eq_add_neg]

/-- The address of the next word is the successor modulo 2^32. -/
theorem nextAddr_eq (a : Word) : nextAddr a = a + 1 := by
  rw [nextAddr, wrap_add, wrap_toInt]; rfl

/-- An in-range value is kept by `wrap`. -/
theorem toInt_wrap_of_range {e : Int} (h : inWordRange e = true) : (wrap e).toInt = e := by
  have h : wordMin ≤ e ∧ e ≤ wordMax := by simpa [inWordRange] using h
  simp only [wordMin, wordMax] at h
  rw [wrap, BitVec.toInt_ofInt]
  exact Int.bmod_eq_of_le (by omega) (by omega)

/-- At the hardware's parameter values an executed instruction calls the ALU on `x[s1]` and the
wrapped `x[s2] + off`. -/
theorem compute_hardware (op : Opcode) (f : Fields) (s : State) :
    compute hardware op f s =
      alu .wrap op (readReg f.s1 s) (wrap ((readReg f.s2 s).toInt + f.off.toInt)) := by
  simp [compute, formRight, hardware]

theorem compute_halt (f : Fields) (s : State) : compute hardware .halt f s = (0, .z) := by
  simp [compute_hardware, alu]

theorem compute_invalid (f : Fields) (s : State) : compute hardware .invalid f s = (0, .v) := by
  simp [compute_hardware, alu, faultResult]

end Sys2Proof.Machine
end

