-- ==== Sys2Proof/Laws/Inv.lean ====
section
/-! SUPPORT. Every shared operation over the state keeps the invariant of Sys2Proof/Safety.lean. -/

namespace Sys2Proof.Machine

/-- A write to a register leaves the cell behind the zero register alone. -/
theorem putCell_zero (r : Reg) (v : Word) (regs : Vector Word 16) :
    (putCell r v regs)[(0 : Reg)] = regs[(0 : Reg)] := by
  unfold putCell
  split
  · rfl
  · rename_i hr
    exact Vector.getElem_set_ne r.isLt (show 0 < 16 by omega) fun e => hr (Fin.ext e)

/-- A write to a register leaves the zero register's mark alone. -/
theorem markWritten_zero (r : Reg) (written : Vector Bool 16) :
    (markWritten r written)[(0 : Reg)] = written[(0 : Reg)] := by
  unfold markWritten
  split
  · rfl
  · rename_i hr
    exact Vector.getElem_set_ne r.isLt (show 0 < 16 by omega) fun e => hr (Fin.ext e)

variable {s : State}

theorem writeReg_inv (r : Reg) (v : Word) (h : Inv s) : Inv (writeReg r v s) :=
  ⟨(putCell_zero r v s.regs).trans h.1, (markWritten_zero r s.written).trans h.2.1, h.2.2⟩

theorem recordFlag_inv (f : Flag) (h : Inv s) : Inv (recordFlag f s) := by
  unfold recordFlag
  split
  · exact h
  · exact h

theorem enterHalted_inv (h : Inv s) : Inv (enterHalted s) := h

theorem logAccess_inv (k : AccessKind) (a v : Word) (h : Inv s) : Inv (logAccess k a v s) := h

theorem storeWord_inv (a v : Word) (h : Inv s) : Inv (storeWord a v s) :=
  ⟨h.1, h.2.1, storeWord_wf h.2.2 a v⟩

theorem takeEffect_inv (d : MemAnswer) (h : Inv s) : Inv (takeEffect d s) :=
  ⟨h.1, h.2.1, takeEffect_wf d h.2.2⟩

theorem afterRead_inv (c : Params) (a : Word) (h : Inv s) : Inv (afterRead c a s) :=
  takeEffect_inv (memRead c a s) h

theorem afterWrite_inv (c : Params) (a v : Word) (h : Inv s) : Inv (afterWrite c a v s) :=
  takeEffect_inv (memWrite c a v s) h

theorem afterTrace_inv (c : Params) (h : Inv s) : Inv (afterTrace c s) :=
  afterRead_inv c (pcOf s) h

theorem postAdvance_inv (a : Word) (wrote15 : Bool) (h : Inv s) :
    Inv (postAdvance hardware a wrote15 s) := by
  rw [postAdvance_hardware]
  split
  · exact h
  · exact writeReg_inv _ _ h

end Sys2Proof.Machine
end

