-- ==== Sys2Proof/Laws/PerInstr.lean ====
section
/-! SUPPORT. Per-instruction laws of the encoding: in the word of every instruction the opcode and the
five fields stand where spec/30_encoding.md R60 puts them. -/

namespace Sys2Proof.Laws

open Sys2Proof

theorem assembleWord_opcode (op : BitVec 4) (f : Fields) :
    opcodeNumber (assembleWord op f) = op.toNat := by
  unfold opcodeNumber
  congr 1
  unfold assembleWord
  ext i hi
  simp only [BitVec.getElem_extractLsb', BitVec.getLsbD_append]
  grind

theorem assembleWord_fields (op : BitVec 4) (f : Fields) : fieldsOf (assembleWord op f) = f := by
  obtain ⟨mask, t, s1, s2, off⟩ := f
  simp only [fieldsOf, assembleWord, Fields.mk.injEq]
  refine ⟨?_, ?_, ?_, ?_, ?_⟩
  · ext i hi
    simp only [BitVec.getElem_extractLsb', BitVec.getLsbD_append]
    grind
  · refine congrArg BitVec.toFin (a₂ := BitVec.ofFin (w := 4) t) ?_
    ext i hi
    simp only [BitVec.getElem_extractLsb', BitVec.getLsbD_append]
    grind
  · refine congrArg BitVec.toFin (a₂ := BitVec.ofFin (w := 4) s1) ?_
    ext i hi
    simp only [BitVec.getElem_extractLsb', BitVec.getLsbD_append]
    grind
  · refine congrArg BitVec.toFin (a₂ := BitVec.ofFin (w := 4) s2) ?_
    ext i hi
    simp only [BitVec.getElem_extractLsb', BitVec.getLsbD_append]
    grind
  · ext i hi
    simp only [BitVec.getElem_extractLsb', BitVec.getLsbD_append]
    grind

namespace EncodingLayout

/-- The opcode number stands in bits 31:28 and the fields are read back from the word. -/
def Statement (i : Instr) : Prop :=
  opcodeNumber (encode i) = (opcodeField i).toNat ∧ fieldsOf (encode i) = i.fields

theorem layout (i : Instr) : Statement i := ⟨assembleWord_opcode _ _, assembleWord_fields _ _⟩

theorem halt (f : Fields) : Statement (.halt f) := layout _
theorem load (f : Fields) : Statement (.load f) := layout _
theorem store (f : Fields) : Statement (.store f) := layout _
theorem add (f : Fields) : Statement (.add f) := layout _
theorem sub (f : Fields) : Statement (.sub f) := layout _
theorem mul (f : Fields) : Statement (.mul f) := layout _
theorem div (f : Fields) : Statement (.div f) := layout _
theorem invalid7 (f : Fields) : Statement (.invalid7 f) := layout _
theorem invalidHigh (f : Fields) : Statement (.invalidHigh f) := layout _

end EncodingLayout

end Sys2Proof.Laws
end

