-- ==== Sys2Proof/Tests/Slice0.lean ====
section
/-! SUPPORT. Tests with expected values from spec/ (95_test_vectors.md and the rules' own examples), and a
witness for the hypotheses of every statement that has some. -/

namespace Sys2Proof.Tests

open Sys2Proof Sys2Proof.Machine Sys2Proof.Claims

/-! ### Small states -/

/-- A running CORE at address `a`, with some registers and some words set. -/
def running (a : Word) (regs : List (Reg × Word)) (words : List (Word × Word)) : State :=
  words.foldl (fun s w => storeWord w.1 w.2 s)
    (regs.foldl (fun s r => writeReg r.1 r.2 s) (startAt a State.reset))

/-- The same with a condition. -/
def withCond (c : Flag) (s : State) : State := { s with cond := c }

/-- The same with the memory admitting only 0 to 15 (95_test_vectors.md 2.7). -/
def admits0to15 (s : State) : State := { s with regions := [{ lo := 0, hi := 15, kind := .storage }] }

/-- Fields with mask ALWAYS. -/
def fields (t s1 s2 : Reg) (off : Offset) : Fields := { mask := Mask.always, t, s1, s2, off }

/-- Whether an outcome is a next state with a property. -/
def ran (o : Outcome) (p : State → Bool) : Bool :=
  match o with
  | .next t => p t
  | .fault _ => false
  | .refused _ => false

/-- Whether an outcome is the model fault at an address. -/
def outOfRange (o : Outcome) (a : Word) : Bool :=
  match o with
  | .next _ => false
  | .fault r => r == .memoryRange a
  | .refused _ => false

/-! ### Well-formedness: opcode 0 to 6 (R69) -/

theorem test_invalid_is_ill_formed :
    WellFormed (.invalid7 (fields 0 0 0 0)) = false ∧ WellFormed (.invalidHigh (fields 0 0 0 0)) = false := by
  decide

theorem test_add_is_well_formed : WellFormed (.add (fields 1 0 0 5)) = true := by decide

/-! ### Decoding words written out from the layout (R60, 95_test_vectors.md 2.3) -/

theorem test_decode_halt : decode 0b0000_1111_0000_0000_0000_000000000000#32 = .halt (fields 0 0 0 0) := by decide
theorem test_decode_load : decode 0b0001_1111_0011_0000_0000_000001100100#32 = .load (fields 3 0 0 100) := by decide
theorem test_decode_store : decode 0b0010_1111_0010_0000_0000_000001100100#32 = .store (fields 2 0 0 100) := by decide
theorem test_decode_add :
    decode 0b0011_0100_1111_0000_1111_111111111110#32 =
      .add { mask := 0b0100, t := 15, s1 := 0, s2 := 15, off := -2 } := by decide
theorem test_decode_sub : decode 0b0100_1111_0001_0000_0000_000000000111#32 = .sub (fields 1 0 0 7) := by decide
theorem test_decode_mul : decode 0b0101_1111_0011_0001_0010_000000000000#32 = .mul (fields 3 1 2 0) := by decide
theorem test_decode_div : decode 0b0110_1111_0010_0001_0000_000000000010#32 = .div (fields 2 1 0 2) := by decide
theorem test_decode_invalid7 : decode 0b0111_1111_0000_0000_0000_000000000000#32 = .invalid7 (fields 0 0 0 0) := by decide
theorem test_decode_invalidHigh :
    decode 0b1000_1010_0101_1100_0011_000100100011#32 =
      .invalidHigh { mask := 0b1010, t := 5, s1 := 12, s2 := 3, off := 291 } := by decide
theorem test_decode_offset_ends :
    (decode 0x3F100800).fields.off.toInt = -2048 ∧ (decode 0x3F1007FF).fields.off.toInt = 2047 := by decide
theorem test_decodeTableWord :
    decodeTableWord 32 0x6F210002 = some (.div (fields 2 1 0 2)) ∧ decodeTableWord 32 (2 ^ 32) = none := by decide

/-! ### One step of each instruction (95_test_vectors.md 1, 2.5 and 2.6, and the rules' examples) -/

theorem test_add_L1_1 :
    ran (step (running 0 [] [(0, 0x3F100005)]))
      (fun t => readReg 1 t == 5 && pcOf t == 1 && t.cond == .p && !t.halted) = true := by decide

theorem test_add_jump_back :
    ran (step (withCond .p (running 10 [] [(10, 0x34F0FFFE)])))
      (fun t => pcOf t == 8 && t.cond == .p) = true := by decide

theorem test_sub_example :
    ran (step (running 0 [] [(0, 0x4F100007)]))
      (fun t => readReg 1 t == wrap (-7) && t.cond == .m) = true := by decide

theorem test_sub_compare_wraps :
    ran (exec (.sub (fields 0 1 2 0)) (running 0 [(1, wrap 2147483647), (2, wrap (-1))] []))
      (fun t => readReg 0 t == 0 && t.cond == .m && pcOf t == 1) = true := by decide

theorem test_mul_low_bits :
    ran (exec (.mul (fields 3 1 2 0)) (running 0 [(1, 46341), (2, 46341)] []))
      (fun t => readReg 3 t == wrap (-2147479015) && t.cond == .m) = true := by decide

theorem test_div_floor :
    ran (step (running 1 [(1, wrap (-7))] [(1, 0x6F210002)]))
      (fun t => readReg 2 t == wrap (-4) && t.cond == .m && !t.halted) = true := by decide

theorem test_div_by_zero :
    ran (step (running 1 [(1, 7), (2, 99)] [(1, 0x6F210000)]))
      (fun t => readReg 2 t == 0 && t.cond == .v && t.halted && pcOf t == 2) = true := by decide

theorem test_load_jump :
    ran (step (running 0 [] [(0, 0x1FF0000A), (10, 5)]))
      (fun t => pcOf t == 5 && t.cond == .p) = true := by decide

theorem test_load_out_of_range :
    outOfRange (exec (.load (fields 1 0 0 100)) (admits0to15 (running 0 [] []))) 100 = true := by decide

theorem test_store_r15_stores_own_address :
    ran (exec (.store (fields 15 0 0 50)) (running 10 [] []))
      (fun t => readWord 50 t == 10 && pcOf t == 11 && t.cond == .p) = true := by decide

theorem test_store_zero_keeps_memory_canonical :
    ran (exec (.store (fields 0 0 0 50)) (running 10 [] [(50, 7), (60, 8)]))
      (fun t => t.mem == [(60, 8)]) = true := by decide

theorem test_halt_at_1 :
    ran (step (running 1 [] [(1, 0x0F000000)]))
      (fun t => t.halted && t.cond == .z && pcOf t == 2) = true := by decide

theorem test_halt_never_is_a_no_op :
    ran (step (running 1 [] [(1, 0)])) (fun t => !t.halted && pcOf t == 2) = true := by decide

theorem test_invalid7_at_3 :
    ran (step (running 3 [] [(3, 0x7F000000)]))
      (fun t => t.cond == .v && t.halted && pcOf t == 4) = true := by decide

theorem test_invalidHigh_does_not_jump :
    ran (exec (.invalidHigh (fields 15 0 0 0)) (running 3 [] []))
      (fun t => t.cond == .v && t.halted && pcOf t == 4) = true := by decide

theorem test_pc_wraps :
    ran (exec (.add (fields 1 0 0 1)) (running (wrap 2147483647) [] []))
      (fun t => pcOf t == wrap (-2147483648)) = true := by decide

theorem test_skipped_div_by_zero :
    ran (exec (.div { mask := 0b0110, t := 1, s1 := 2, s2 := 0, off := 0 })
        (withCond .m (running 0 [(1, 9)] [])))
      (fun t => readReg 1 t == 9 && t.cond == .m && !t.halted && pcOf t == 1) = true := by decide

theorem test_fetch_out_of_range : outOfRange (step (admits0to15 (running 16 [] []))) 16 = true := by decide

/-! ### The OPEN parameters (95_test_vectors.md 2.4 and 2.5) -/

theorem test_pc_order_columns :
    ran (arith { overflow := .wrap, pcOrder := .incrementAfterWrite } .div (fields 15 1 0 0) (running 10 [] []))
      (fun t => pcOf t == 1 && t.halted) = true ∧
    ran (arith { overflow := .wrap, pcOrder := .advanceOverrides } .div (fields 15 1 0 0) (running 10 [] []))
      (fun t => pcOf t == 11) = true ∧
    ran (storeOp { overflow := .wrap, pcOrder := .advanceBeforeWriteback } (fields 15 0 0 50) (running 10 [] []))
      (fun t => readWord 50 t == 11 && pcOf t == 11) = true := by decide

theorem test_formRight_ends :
    formRight .wrap (wrap 2147483647) 1 = (wrap (-2147483648), false) ∧
    formRight .fault (wrap 2147483647) 1 = (0, true) ∧
    formRight .wrap (wrap (-2147483648)) (-1) = (wrap 2147483647, false) ∧
    formRight .fault 10 (-2048) = (wrap (-2038), false) := by decide

/-! ### Devices (R50): a register at address 8 whose read clears it, in a behaviour of the test's own -/

/-- A read answers the register and clears it, a write sets it and counts at address 9. -/
def clearOnRead : DeviceBehaviour where
  read n _ _ := { word := BitVec.ofNat 32 n, state := 0, changes := [] }
  write _ _ v := { word := 0, state := v.toNat, changes := [(9, 1)] }

/-- The register holds 7. -/
def deviceState : State :=
  { running 0 [(1, 5)] [] with regions := { lo := 8, hi := 8, kind := .device } :: Config.platform, device := 7 }

theorem test_load_from_device_to_r0_has_its_side_effect :
    ran (loadOp (withDevices clearOnRead) (fields 0 0 0 8) deviceState)
      (fun t => t.device == 0 && readReg 0 t == 0 && t.cond == .p && pcOf t == 1 &&
        t.bus == [{ kind := .load, addr := 8, word := 7 }]) = true := by decide

theorem test_store_to_device :
    ran (storeOp (withDevices clearOnRead) (fields 1 0 0 8) deviceState)
      (fun t => t.device == 5 && readWord 9 t == 1 && readWord 8 t == 0 && pcOf t == 1) = true := by decide

theorem test_skipped_load_leaves_device :
    ran (loadOp (withDevices clearOnRead) { fields 2 0 0 8 with mask := Mask.never } deviceState)
      (fun t => t.device == 7 && t.bus == []) = true := by decide

theorem test_load_from_device_runs_with_free_behaviour :
    ran (exec (.load (fields 2 0 0 8)) deviceState)
      (fun t => t.cond == .p && pcOf t == 1 && readReg 1 t == 5) = true := by decide

/-! ### The trace, the host, the run (95_test_vectors.md 2.7 and 2.8, R109, R110) -/

theorem test_skipped_step_is_traced :
    ran (step (withCond .p (running 1 [] [(1, 0x32200007)])))
      (fun t => t.cond == .p && t.trace.map (fun e => (e.addr, e.word, e.instr)) ==
        [(1, 0x32200007, .add { mask := 0b0010, t := 2, s1 := 0, s2 := 0, off := 7 })]) = true := by decide

theorem test_unwritten_read_is_named :
    unwrittenRead (.add (fields 1 2 0 0)) (running 0 [] []) = some 2 ∧
    unwrittenRead (.add { mask := Mask.never, t := 1, s1 := 2, s2 := 0, off := 0 }) (running 0 [] []) = none ∧
    unwrittenRead (.store (fields 3 0 0 5)) (running 0 [] []) = some 3 := by decide

theorem test_start_after_fault_keeps_cond :
    ran (hostCommand (.start 2) { running 1 [] [] with cond := .v, halted := true })
      (fun t => t.cond == .v && !t.halted && pcOf t == 2) = true := by decide

theorem test_withFetchWord_runs_the_word :
    ran (step (State.reset.withFetchWord 32 0x3F100005))
      (fun t => readReg 1 t == 5 && pcOf t == 1) = true := by decide

/-! ### Witnesses: a concrete state and operands for every statement's hypotheses -/

theorem witness_RegisterReadsTheLastValueWritten : (1 : Reg) ≠ 0 ∧ (15 : Reg) ≠ 0 := by decide

theorem witness_FlagComesFromTheWordResult : (alu .wrap .add 0 0).2 ≠ .v := by decide

theorem witness_OverflowPoliciesBringTheValueBack :
    (exactValue .add (wrap 2147483647) 1 = some 2147483648 ∧ ¬ Fits 2147483648) ∧
    (exactValue .sub (wrap (-2147483648)) 1 = some (-2147483649) ∧ ¬ Fits (-2147483649)) ∧
    (exactValue .add (wrap 2147483646) 1 = some 2147483647 ∧ Fits 2147483647) ∧
    exactValue .div (wrap (-2147483648)) 1 = some (-2147483648) ∧ Fits (-2147483648) := by decide

theorem witness_DivRoundsTowardMinusInfinity :
    (wrap 1 ≠ 0 ∧ ¬ ((wrap (-2147483648)).toInt = -2147483648 ∧ (wrap 1).toInt = -1)) ∧
    wrap (-2) ≠ 0 ∧ ¬ ((wrap 7).toInt = -2147483648 ∧ (wrap (-2)).toInt = -1) := by decide

theorem witness_EncodeFollowsTheFormulaAndDecodesBack :
    WellFormed (.store { mask := 0, t := 15, s1 := 0, s2 := 15, off := -2048 }) = true := by decide

theorem witness_DecodeThenEncodeGivesTheWordBack :
    WellFormed (decode 0x6F210000) = true ∧ WellFormed (.invalidHigh (fields 15 15 15 (-1))) = false := by decide

theorem witness_NegativeWordsAreInvalidAndZeroIsANoOp :
    (0x80000000#32).toInt < 0 ∧ (0xFFFFFFFF#32).toInt < 0 ∧
    (running 7 [] []).halted = false ∧ isStorage (readReg 15 (running 7 [] [])) (running 7 [] []) = true ∧
    readWord (readReg 15 (running 7 [] [])) (running 7 [] []) = 0 := by decide

theorem witness_SkippedInstructionOnlyAdvancesThePc :
    passes State.reset.cond (Instr.halt { mask := 0b1101, t := 0, s1 := 0, s2 := 0, off := 0 }).fields.mask = false := by
  decide

/-- For the instruction statements: executed, in and out of range on either side. -/
theorem witness_AddWritesTheWrappedSum :
    passes (running 0 [(1, wrap 2147483647)] []).cond (fields 2 1 0 1).mask = true ∧
    Fits (rightOf (fields 2 1 0 1) (running 0 [(1, wrap 2147483647)] [])) ∧
    ¬ Fits (leftOf (fields 2 1 0 1) (running 0 [(1, wrap 2147483647)] []) +
      rightOf (fields 2 1 0 1) (running 0 [(1, wrap 2147483647)] [])) ∧
    ¬ Fits (rightOf (fields 2 0 1 1) (running 0 [(1, wrap 2147483647)] [])) ∧
    Fits (leftOf (fields 2 1 0 0) (running 0 [(1, wrap 2147483647)] []) +
      rightOf (fields 2 1 0 0) (running 0 [(1, wrap 2147483647)] [])) := by decide

theorem witness_SubWritesTheWrappedDifference :
    passes (running 0 [(1, wrap (-2147483648))] []).cond (fields 15 1 0 1).mask = true ∧
    ¬ Fits (leftOf (fields 15 1 0 1) (running 0 [(1, wrap (-2147483648))] []) -
      rightOf (fields 15 1 0 1) (running 0 [(1, wrap (-2147483648))] [])) ∧
    Fits (leftOf (fields 15 1 0 0) (running 0 [(1, wrap (-2147483648))] []) -
      rightOf (fields 15 1 0 0) (running 0 [(1, wrap (-2147483648))] [])) := by decide

theorem witness_MulWritesTheLowProduct :
    passes (running 0 [(1, 6), (2, 7)] []).cond (fields 3 1 2 0).mask = true ∧
    readReg 1 (running 0 [(1, 6), (2, 7)] []) = wrap 6 ∧ readReg 2 (running 0 [(1, 6), (2, 7)] []) = wrap 7 ∧
    ¬ Fits (leftOf (fields 3 1 1 0) (running 0 [(1, 65536)] []) *
      rightOf (fields 3 1 1 0) (running 0 [(1, 65536)] [])) := by decide

theorem witness_DivWritesTheFloorQuotientOrFaults :
    passes (running 0 [(1, wrap (-7))] []).cond (fields 2 1 0 2).mask = true ∧
    wrap (rightOf (fields 2 1 0 2) (running 0 [(1, wrap (-7))] [])) ≠ 0 ∧
    wrap (rightOf (fields 2 1 3 (-3)) (running 0 [(3, 3)] [])) = 0 ∧
    ¬ Fits (Int.fdiv (leftOf (fields 2 1 0 (-1)) (running 0 [(1, wrap (-2147483648))] []))
      (rightOf (fields 2 1 0 (-1)) (running 0 [(1, wrap (-2147483648))] []))) ∧
    readReg 1 (running 0 [(1, wrap (-7))] []) = wrap (-7) ∧ readReg 1 (running 0 [(1, 7)] []) = wrap 7 := by decide

theorem witness_LoadReadsTheWordAtTheEffectiveAddress :
    passes (running 0 [] [(100, 42)]).cond (fields 3 0 0 100).mask = true ∧
    isStorage (ea (fields 3 0 0 100) (running 0 [] [(100, 42)])) (running 0 [] [(100, 42)]) = true ∧
    kindAt (ea (fields 3 0 0 100) (admits0to15 (running 0 [] []))) (admits0to15 (running 0 [] [])).regions = none ∧
    ¬ Fits (leftOf (fields 3 1 0 1) (running 0 [(1, wrap 2147483647)] []) +
      rightOf (fields 3 1 0 1) (running 0 [(1, wrap 2147483647)] [])) ∧
    isStorage 0 (running 0 [(1, wrap 2147483647)] []) = true ∧
    isStorage 100 (running 0 [] [(100, 42)]) = true ∧ readWord 100 (running 0 [] [(100, 42)]) = wrap 42 := by decide

theorem witness_StoreWritesTheWordAtTheEffectiveAddress :
    passes (running 0 [(2, 42)] []).cond (fields 2 0 0 100).mask = true ∧
    isStorage (ea (fields 2 0 0 100) (running 0 [(2, 42)] [])) (running 0 [(2, 42)] []) = true ∧
    kindAt (ea (fields 2 0 0 16) (admits0to15 (running 0 [] []))) (admits0to15 (running 0 [] [])).regions = none ∧
    kindAt (ea (fields 2 0 0 15) (admits0to15 (running 0 [] []))) (admits0to15 (running 0 [] [])).regions ≠ none ∧
    ¬ Fits (rightOf (fields 3 0 1 1) (running 0 [(1, wrap 2147483647)] [])) ∧
    isStorage 100 (running 0 [(2, 42)] []) = true ∧ readReg 2 (running 0 [(2, 42)] []) = wrap 42 := by decide

theorem witness_StoreThenLoadReturnsTheStoredWord :
    ran (exec (.store (fields 2 0 0 100)) (running 0 [(2, 42)] []))
      (fun t => passes t.cond (fields 3 0 0 100).mask && isStorage 100 t &&
        ea (fields 3 0 0 100) t == ea (fields 2 0 0 100) (running 0 [(2, 42)] [])) = true := by decide

/-- A LOAD of a clear-on-read register, and a STORE to it, with a device behaviour of the test's own. -/
theorem witness_DeviceAccessesActAsTheMemParameterSays :
    passes deviceState.cond (fields 0 0 0 8).mask = true ∧
    kindAt (ea (fields 0 0 0 8) deviceState) deviceState.regions = some .device ∧
    (writeReg 15 8 deviceState).halted = false ∧
    kindAt (readReg 15 (writeReg 15 8 deviceState)) (writeReg 15 8 deviceState).regions = some .device := by
  decide

theorem witness_HaltHaltsAndWritesNothingElse :
    passes (running 1 [] []).cond (fields 0 0 0 0).mask = true ∧
    (fields 0 0 0 0).mask = (fields 15 1 2 7).mask ∧ readReg 15 (running 1 [] []) = wrap 1 := by decide

theorem witness_InvalidTakesTheFaultAndWritesNothingElse :
    passes (running 3 [] []).cond (fields 15 0 0 0).mask = true ∧
    passes (running 3 [] []).cond Mask.never = false ∧ readReg 15 (running 3 [] []) = wrap 3 := by decide

theorem witness_ReadsPrecedeWritesWithinAStep :
    isStorage (readReg 2 (running 0 [(2, 9)] [])) (running 0 [(2, 9)] []) = true := by decide

theorem witness_OnlyAnExecutedInstructionWritesCond :
    ran (exec (.div (fields 2 1 0 0)) (running 0 [] [])) (fun t => t.cond == .v) = true ∧
    passes (running 0 [] []).cond (fields 2 1 0 0).mask = true ∧
    wrap (rightOf (Instr.div (fields 2 1 0 0)).fields (running 0 [] [])) = 0 ∧
    ran (exec (.add { fields 2 1 0 0 with mask := Mask.never }) (running 0 [] [])) (fun t => t.cond == .z) = true ∧
    ran (hostCommand (.start 5) State.reset) (fun t => t.cond == .z) = true := by decide

theorem witness_NextPcIsTheWordWrittenOrTheNextAddress :
    ran (exec (.add (fields 15 0 0 20)) (running 10 [] [])) (fun t => readReg 15 t == 20) = true ∧
    ran (exec (.store (fields 15 0 0 20)) (running 10 [] [])) (fun t => readReg 15 t == 11) = true := by decide

theorem witness_PcOrderAlternativesDifferAsStated :
    ran (execUnder { overflow := .wrap, pcOrder := .incrementAfterWrite } (.add (fields 15 0 0 20)) (running 10 [] []))
      (fun t => readReg 15 t == 21) = true ∧
    ran (execUnder { overflow := .wrap, pcOrder := .advanceOverrides } (.add (fields 15 0 0 20)) (running 10 [] []))
      (fun t => readReg 15 t == 11) = true ∧
    ¬ ((Instr.store (fields 14 0 0 50)).op = .store ∧ (Instr.store (fields 14 0 0 50)).fields.t = 15) ∧
    (fields 15 0 0 50).t = 15 ∧ passes (running 10 [] []).cond (fields 15 0 0 50).mask = true ∧
    isStorage (ea (fields 15 0 0 50) (running 10 [] [])) (running 10 [] []) = true := by decide

theorem witness_OverflowPolicyMattersOnlyOutOfRange :
    noOverflow .add (wrap 2147483647) 0 0 = true ∧ noOverflow .add (wrap 2147483647) 0 1 = false := by decide

theorem witness_JumpsReachTheirTargets :
    passes (running 10 [] []).cond Mask.always = true ∧
    (expandPseudo (readReg 15 (running 10 [] [])) (.jump Mask.always (wrap (10 - 2048)))).isSome = true ∧
    (expandPseudo (readReg 15 (running 10 [] [])) (.jump Mask.always (wrap (10 - 2049)))).isSome = false ∧
    (expandPseudo (readReg 15 (running 10 [] [])) (.jump Mask.always (wrap (10 + 2047)))).isSome = true ∧
    (expandPseudo (readReg 15 (running 10 [] [])) (.jump Mask.always (wrap (10 + 2048)))).isSome = false ∧
    (expandPseudo (readReg 15 (running 10 [] [])) (.jumpa Mask.always (-1))).isSome = true ∧
    (expandPseudo (readReg 15 (running 10 [] [])) (.jumpr Mask.always 15)).isSome = true := by decide

theorem witness_PseudoInstructionsHaveTheirNotedEffect :
    isStorage (wrap (-2048 : Offset).toInt) (running 0 [] []) = true := by decide

theorem witness_StepRunsTheDecodedInstruction :
    (running 3 [] [(3, 0x7F000000)]).halted = false ∧
    isStorage (readReg 15 (running 3 [] [(3, 0x7F000000)])) (running 3 [] [(3, 0x7F000000)]) = true ∧
    decode (readWord (readReg 15 (running 3 [] [(3, 0x7F000000)])) (running 3 [] [(3, 0x7F000000)])) =
      .invalid7 (fields 0 0 0 0) ∧
    kindAt (readReg 15 (admits0to15 (running 16 [] []))) (admits0to15 (running 16 [] [])).regions = none := by decide

/-- For the statements about a running CORE's step that answers a next state: an executed step, a
skipped one, and one that halts. -/
theorem witness_step_answers_next :
    (running 0 [] [(0, 0x2F100005)]).halted = false ∧
    ran (step (running 0 [] [(0, 0x2F100005)])) (fun t => !t.halted) = true ∧
    isStorage (ea (fetched (running 0 [] [(0, 0x2F100005)])).fields (running 0 [] [(0, 0x2F100005)]))
      (running 0 [] [(0, 0x2F100005)]) = true ∧
    ran (step (running 0 [] [(0, 0)])) (fun t => !t.halted) = true ∧
    ran (step (running 0 [] [(0, 0x0F000000)])) (fun t => t.halted) = true ∧
    ran (step State.reset) (fun t => t.halted) = true := by decide

/-- The second fetch of a word stored by the first step, and a STORE to its own address. -/
theorem witness_FetchSeesEveryEarlierStore :
    isStorage (ea (fields 1 0 0 1) (running 0 [(1, 0x0F000000)] [])) (running 0 [(1, 0x0F000000)] []) = true ∧
    ran (exec (.store (fields 1 0 0 1)) (running 0 [(1, 0x0F000000)] []))
      (fun t => !t.halted && readReg 15 t == ea (fields 1 0 0 1) (running 0 [(1, 0x0F000000)] []) &&
        isStorage (ea (fields 1 0 0 1) (running 0 [(1, 0x0F000000)] [])) t) = true ∧
    fetched (running 5 [(1, 9)] [(5, 0x2F100005)]) = .store (fields 1 0 0 5) ∧
    ea (fields 1 0 0 5) (running 5 [(1, 9)] [(5, 0x2F100005)]) =
      readReg 15 (running 5 [(1, 9)] [(5, 0x2F100005)]) ∧
    passes (running 5 [(1, 9)] [(5, 0x2F100005)]).cond (fields 1 0 0 5).mask = true := by decide

theorem witness_HaltedIsSetOnlyByHaltOrFault :
    ran (hostCommand (.start 0) State.reset) (fun t => !t.halted) = true ∧
    ran (hostCommand (.loadWord 3 7) State.reset) (fun t => t.halted) = true := by decide

theorem witness_ArithmeticFaultHaltsPrecisely :
    (running 1 [(1, 7)] [(1, 0x6FF10000)]).halted = false ∧
    isStorage (readReg 15 (running 1 [(1, 7)] [(1, 0x6FF10000)])) (running 1 [(1, 7)] [(1, 0x6FF10000)]) = true ∧
    passes (running 1 [(1, 7)] [(1, 0x6FF10000)]).cond (fetched (running 1 [(1, 7)] [(1, 0x6FF10000)])).fields.mask = true ∧
    (aluOf (fetched (running 1 [(1, 7)] [(1, 0x6FF10000)])) (running 1 [(1, 7)] [(1, 0x6FF10000)])).2 = .v ∧
    (fetched (running 1 [] [(1, 0x8F000000)])).op = .invalid := by decide

theorem witness_HaltedIsAbsorbing : State.reset.halted = true := by decide

theorem witness_StartSetsOnlyThePcAndHalted :
    State.reset.halted = true ∧ isStorage 5 State.reset = true := by decide

theorem witness_HostActsOnlyWhileHalted :
    (running 0 [] []).halted = false ∧ State.reset.halted = true ∧
    isStorage (wrap (-2147483648)) State.reset = true ∧ isStorage (wrap 2147483647) State.reset = true := by decide

theorem witness_RunEndsOnlyInHalted :
    (match runFor 2 (running 0 [] [(0, 0x0F000000)]) with
      | .ended t => t.halted
      | _ => false) = true ∧
    (match runFor 0 (running 0 [] []) with
      | .unfinished t => !t.halted
      | _ => false) = true := by decide

/-- Every address admitted: the state after reset, started. -/
theorem witness_RunningCoreAlwaysSteps (a : Word) :
    kindAt a (startAt 0 State.reset).regions ≠ none := by
  have hl := BitVec.le_toInt a
  have hu := BitVec.toInt_lt (x := a)
  simp [kindAt, State.reset, State.powerOn, startAt, writeReg, Config.platform, wordMin, wordMax]
  omega

theorem witness_StepStopsOnlyAtTheMemory :
    outOfRange (step (admits0to15 (running 16 [] []))) 16 = true ∧
    outOfRange (step (admits0to15 (running 0 [] [(0, 0x1F100064)]))) 100 = true ∧
    ran (step (running 0 [] [(0, 0x1F100064)])) (fun _ => true) = true := by decide

theorem witness_PowerOnIsHaltedAndUnwritten : (1 : Reg) ≠ 0 ∧ (15 : Reg) ≠ 0 := by decide

theorem witness_PowerOnMeetsTheInvariant : Memory.wf [(0, 0x3F100005), (1, 0x0F000000)] := by decide

theorem witness_EveryStepKeepsTheInvariant :
    Inv (running 0 [] [(0, 0x2F100005)]) ∧
    ran (step (running 0 [] [(0, 0x2F100005)])) (fun _ => true) = true := by decide

theorem witness_EveryHostCommandKeepsTheInvariant :
    Inv State.reset ∧ ran (hostCommand (.loadWord 3 7) State.reset) (fun _ => true) = true := by decide

/-- Two states that differ in their observers only, and two that differ in an unwritten register only. -/
theorem witness_ObserversDoNotInfluenceTheCore :
    SameCore (running 0 [] []) (addObserver 3 (running 0 [] [])) := ⟨rfl, rfl, rfl, rfl, rfl, rfl, rfl⟩

theorem witness_UnwrittenRegistersDoNotMatterUnlessRead :
    AgreeOnWritten (running 0 [] [(0, 0x3F100005)])
      { running 0 [] [(0, 0x3F100005)] with
        regs := (running 0 [] [(0, 0x3F100005)]).regs.set (7 : Reg) 9 } ∧
    isWritten 15 (running 0 [] [(0, 0x3F100005)]) = true ∧
    readsOnlyWritten (running 0 [] [(0, 0x3F100005)]) = true :=
  ⟨⟨rfl, by decide, rfl, rfl, rfl, rfl, rfl⟩, by decide, by decide⟩

end Sys2Proof.Tests
end

section
/-! PROOF. The statements about the state (spec/10_state.md): the lemmas on the executed instruction, and
the theorems that settle the statements. -/

namespace Sys2Proof.Proofs

open Sys2Proof.Machine Sys2Proof.Claims

/-! ### A step of a running CORE -/

theorem fetched_eq (s : State) : fetched s = decode (fetchWord hardware s) := rfl

/-- Everything a step of a running CORE can answer as a next state: the skip or the result of the
fetched instruction, from the state with the fetch made and traced. -/
theorem step_next_running {s t : State} (hrun : s.halted = false) (h : step s = .next t) :
    (passes s.cond (fetched s).fields.mask = false ∧ t = skip (afterTrace hardware s)) ∨
    (passes s.cond (fetched s).fields.mask = true ∧
      t = resultOf (fetched s) (afterTrace hardware s)) := by
  rcases step_next h with ⟨hhalted, -⟩ | ⟨-, -, hexec⟩
  · simp [hrun] at hhalted
  · rcases exec_next.mp hexec with hskip | ⟨hpass, -, ht⟩
    · exact .inl hskip
    · exact .inr ⟨hpass, ht⟩

/-- A step from HALTED answers the state itself. -/
theorem step_halted {s : State} (h : s.halted = true) : step s = .next s := by
  simp [step, cycle, h]

/-- A step of a running CORE is the access of the fetch, with the fetched instruction behind it. -/
theorem step_running {s : State} (h : s.halted = false) :
    step s = access (pcOf s) s (exec (fetched s) (afterTrace hardware s)) := by
  simp only [step, cycle, h, Bool.false_eq_true, if_false]
  rfl

/-! ### The invariant -/

theorem skip_inv {s : State} (h : Inv s) : Inv (skip s) := writeReg_inv _ _ h

theorem startAt_inv {s : State} (a : Word) (h : Inv s) : Inv (startAt a s) :=
  writeReg_inv pcReg a h

theorem arithResult_inv {s : State} (op : Opcode) (f : Fields) (h : Inv s) :
    Inv (arithResult op f s) :=
  postAdvance_inv _ _ (writeReg_inv _ _ (recordFlag_inv _ h))

theorem invalidResult_inv {s : State} (f : Fields) (h : Inv s) : Inv (invalidResult f s) :=
  writeReg_inv _ _ (recordFlag_inv _ h)

/-- Every executed instruction keeps the invariant. -/
theorem resultOf_inv {s : State} (i : Instr) (h : Inv s) : Inv (resultOf i s) := by
  cases i with
  | halt f => exact writeReg_inv _ _ (enterHalted_inv (recordFlag_inv _ h))
  | load f =>
    exact postAdvance_inv _ _
      (writeReg_inv _ _ (logAccess_inv _ _ _ (afterRead_inv _ _ (recordFlag_inv _ h))))
  | store f =>
    exact writeReg_inv _ _ (logAccess_inv _ _ _ (afterWrite_inv _ _ _ (recordFlag_inv _ h)))
  | add f => exact arithResult_inv .add f h
  | sub f => exact arithResult_inv .sub f h
  | mul f => exact arithResult_inv .mul f h
  | div f => exact arithResult_inv .div f h
  | invalid7 f => exact invalidResult_inv f h
  | invalidHigh f => exact invalidResult_inv f h

/-- Settles O53: the fetch keeps the invariant, and so do the skip and every instruction's result. -/
theorem everyStepKeepsTheInvariant : Obligations.EveryStepKeepsTheInvariant := by
  intro s t hinv hstep
  cases hh : s.halted with
  | true =>
    rw [step_halted hh, next_eq_next] at hstep
    exact hstep ▸ hinv
  | false =>
    have htrace : Inv (afterTrace hardware s) := afterTrace_inv hardware hinv
    rcases step_next_running hh hstep with ⟨-, rfl⟩ | ⟨-, rfl⟩
    · exact skip_inv htrace
    · exact resultOf_inv _ htrace

/-- Settles O54, by the four things a host command can do. -/
theorem everyHostCommandKeepsTheInvariant : Obligations.EveryHostCommandKeepsTheInvariant := by
  intro c s t hinv hcmd
  obtain ⟨-, hdone⟩ := hostCommand_next hcmd
  rcases hdone with ⟨a, v, -, -, rfl⟩ | ⟨n, -, rfl⟩ | ⟨n, -, rfl⟩ | ⟨a, -, rfl⟩
  · exact storeWord_inv a v hinv
  · exact hinv
  · exact hinv
  · exact startAt_inv a hinv

/-- Settles O52. -/
theorem powerOnMeetsTheInvariant : Obligations.PowerOnMeetsTheInvariant := by
  intro initRegs initCondition regions mem device hmem
  exact ⟨by simp [State.powerOn], by simp [State.powerOn], hmem⟩

/-- At power-on no register but 0 counts as written. -/
theorem isWritten_powerOn (initRegs : Reg → Word) (initCondition : Flag) (regions : List Region)
    (mem : Memory) (device : Nat) (r : Reg) :
    isWritten r (State.powerOn initRegs initCondition regions mem device) = (r == 0) := by
  by_cases hr : r = 0 <;> simp [isWritten, State.powerOn, hr]

/-- Settles O50. -/
theorem powerOnIsHaltedAndUnwritten : Obligations.PowerOnIsHaltedAndUnwritten := by
  intro initRegs initCondition regions mem device
  refine ⟨rfl, readReg_zero _, fun r hr => ?_, rfl⟩
  rw [isWritten_powerOn]
  exact beq_false_of_ne hr

/-! ### States that agree but for unwritten registers -/

section Agreement

variable {s u : State}

theorem agree_writeReg (h : AgreeOnWritten s u) (r : Reg) (v : Word) :
    AgreeOnWritten (writeReg r v s) (writeReg r v u) := by
  obtain ⟨hwritten, hregs, hrest⟩ := h
  refine ⟨congrArg (markWritten r) hwritten, fun q hq => ?_, hrest⟩
  by_cases hqr : q = r
  · subst hqr
    simp
  · rw [readReg_writeReg_ne s v hqr, readReg_writeReg_ne u v hqr]
    exact hregs q (by simpa [isWritten_writeReg, hqr] using hq)

theorem agree_takeFault (h : AgreeOnWritten s u) : AgreeOnWritten (takeFault s) (takeFault u) := by
  obtain ⟨hwritten, hregs, -, -, hmemory⟩ := h
  exact ⟨hwritten, hregs, rfl, rfl, hmemory⟩

theorem agree_recordFlag (h : AgreeOnWritten s u) (f : Flag) :
    AgreeOnWritten (recordFlag f s) (recordFlag f u) := by
  unfold recordFlag
  split
  · exact agree_takeFault h
  · obtain ⟨hwritten, hregs, -, hrest⟩ := h
    exact ⟨hwritten, hregs, rfl, hrest⟩

theorem agree_enterHalted (h : AgreeOnWritten s u) :
    AgreeOnWritten (enterHalted s) (enterHalted u) := by
  obtain ⟨hwritten, hregs, hcond, -, hmemory⟩ := h
  exact ⟨hwritten, hregs, hcond, rfl, hmemory⟩

/-- The access record is no part of the agreement. -/
theorem agree_logAccess (h : AgreeOnWritten s u) (k : AccessKind) (a v : Word) :
    AgreeOnWritten (logAccess k a v s) (logAccess k a v u) := h

theorem agree_takeEffect (h : AgreeOnWritten s u) (d : MemAnswer) :
    AgreeOnWritten (takeEffect d s) (takeEffect d u) := by
  obtain ⟨hwritten, hregs, hcond, hhalted, hmem, hregions, -⟩ := h
  exact ⟨hwritten, hregs, hcond, hhalted, congrArg (Memory.applyChanges d.changes) hmem, hregions, rfl⟩

theorem agree_memRead (h : AgreeOnWritten s u) (c : Params) (a : Word) :
    memRead c a u = memRead c a s := by
  obtain ⟨-, -, -, -, hmem, hregions, hdevice⟩ := h
  exact memRead_congr c a hregions hmem hdevice

theorem agree_wordRead (h : AgreeOnWritten s u) (c : Params) (a : Word) :
    wordRead c a u = wordRead c a s := congrArg MemAnswer.word (agree_memRead h c a)

theorem agree_afterRead (h : AgreeOnWritten s u) (c : Params) (a : Word) :
    AgreeOnWritten (afterRead c a s) (afterRead c a u) := by
  unfold afterRead
  rw [agree_memRead h]
  exact agree_takeEffect h _

theorem agree_afterWrite (h : AgreeOnWritten s u) (c : Params) (a v : Word) :
    AgreeOnWritten (afterWrite c a v s) (afterWrite c a v u) := by
  have hanswer : memWrite c a v u = memWrite c a v s := by
    obtain ⟨-, -, -, -, -, hregions, hdevice⟩ := h
    exact memWrite_congr c a v hregions hdevice
  unfold afterWrite
  rw [hanswer]
  exact agree_takeEffect h _

theorem agree_postAdvance (h : AgreeOnWritten s u) (a : Word) (wrote15 : Bool) :
    AgreeOnWritten (postAdvance hardware a wrote15 s) (postAdvance hardware a wrote15 u) := by
  rw [postAdvance_hardware, postAdvance_hardware]
  split
  · exact h
  · exact agree_writeReg h _ _

theorem agree_readReg (h : AgreeOnWritten s u) {r : Reg} (hr : isWritten r s = true) :
    readReg r u = readReg r s := by
  obtain ⟨-, hregs, -⟩ := h
  exact hregs r hr

theorem agree_compute (h : AgreeOnWritten s u) (op : Opcode) {f : Fields}
    (h1 : isWritten f.s1 s = true) (h2 : isWritten f.s2 s = true) :
    compute hardware op f u = compute hardware op f s := by
  rw [compute_hardware, compute_hardware, agree_readReg h h1, agree_readReg h h2]

variable (hpc : isWritten pcReg s = true)
include hpc

theorem agree_pcOf (h : AgreeOnWritten s u) : pcOf u = pcOf s := agree_readReg h hpc

theorem agree_fetched (h : AgreeOnWritten s u) : fetched u = fetched s := by
  change decode (wordRead hardware (pcOf u) u) = decode (wordRead hardware (pcOf s) s)
  rw [agree_pcOf hpc h, agree_wordRead h]

/-- The trace is no part of the agreement. -/
theorem agree_afterTrace (h : AgreeOnWritten s u) :
    AgreeOnWritten (afterTrace hardware s) (afterTrace hardware u) := by
  have hread : AgreeOnWritten (afterRead hardware (pcOf s) s) (afterRead hardware (pcOf u) u) := by
    rw [agree_pcOf hpc h]
    exact agree_afterRead h hardware (pcOf s)
  exact hread

theorem agree_skip (h : AgreeOnWritten s u) : AgreeOnWritten (skip s) (skip u) := by
  unfold skip
  rw [agree_pcOf hpc h]
  exact agree_writeReg h _ _

theorem agree_arithResult (h : AgreeOnWritten s u) (op : Opcode) {f : Fields}
    (h1 : isWritten f.s1 s = true) (h2 : isWritten f.s2 s = true) :
    AgreeOnWritten (arithResult op f s) (arithResult op f u) := by
  unfold arithResult
  rw [agree_pcOf hpc h, agree_compute h op h1 h2]
  exact agree_postAdvance (agree_writeReg (agree_recordFlag h _) _ _) _ _

theorem agree_invalidResult (h : AgreeOnWritten s u) {f : Fields}
    (h1 : isWritten f.s1 s = true) (h2 : isWritten f.s2 s = true) :
    AgreeOnWritten (invalidResult f s) (invalidResult f u) := by
  unfold invalidResult
  rw [agree_pcOf hpc h, agree_compute h .invalid h1 h2]
  exact agree_writeReg (agree_recordFlag h _) _ _

theorem agree_haltResult (h : AgreeOnWritten s u) {f : Fields}
    (h1 : isWritten f.s1 s = true) (h2 : isWritten f.s2 s = true) :
    AgreeOnWritten (haltResult f s) (haltResult f u) := by
  unfold haltResult
  rw [agree_pcOf hpc h, agree_compute h .halt h1 h2]
  exact agree_writeReg (agree_enterHalted (agree_recordFlag h _)) _ _

theorem agree_loadResult (h : AgreeOnWritten s u) {f : Fields}
    (h1 : isWritten f.s1 s = true) (h2 : isWritten f.s2 s = true) :
    AgreeOnWritten (loadResult f s) (loadResult f u) := by
  unfold loadResult
  rw [agree_pcOf hpc h, agree_compute h .load h1 h2, agree_wordRead h]
  exact agree_postAdvance
    (agree_writeReg (agree_logAccess (agree_afterRead (agree_recordFlag h _) _ _) _ _ _) _ _) _ _

theorem agree_storeResult (h : AgreeOnWritten s u) {f : Fields}
    (h1 : isWritten f.s1 s = true) (h2 : isWritten f.s2 s = true) (ht : isWritten f.t s = true) :
    AgreeOnWritten (storeResult f s) (storeResult f u) := by
  unfold storeResult
  rw [agree_pcOf hpc h, agree_compute h .store h1 h2, agree_readReg h ht]
  exact agree_writeReg (agree_logAccess (agree_afterWrite (agree_recordFlag h _) _ _ _) _ _ _) _ _

omit hpc in
theorem sources_mem_registersRead (i : Instr) :
    i.fields.s1 ∈ registersRead i ∧ i.fields.s2 ∈ registersRead i := by
  cases i <;> simp [registersRead, Instr.fields]

/-- An executed instruction that reads written registers only leaves agreeing states. -/
theorem agree_resultOf (h : AgreeOnWritten s u) {i : Instr}
    (hread : ∀ r ∈ registersRead i, isWritten r s = true) :
    AgreeOnWritten (resultOf i s) (resultOf i u) := by
  have h1 := hread _ (sources_mem_registersRead i).1
  have h2 := hread _ (sources_mem_registersRead i).2
  cases i with
  | halt f => exact agree_haltResult hpc h h1 h2
  | load f => exact agree_loadResult hpc h h1 h2
  | store f => exact agree_storeResult hpc h h1 h2 (hread f.t (by simp [registersRead]))
  | add f => exact agree_arithResult hpc h .add h1 h2
  | sub f => exact agree_arithResult hpc h .sub h1 h2
  | mul f => exact agree_arithResult hpc h .mul h1 h2
  | div f => exact agree_arithResult hpc h .div h1 h2
  | invalid7 f => exact agree_invalidResult hpc h h1 h2
  | invalidHigh f => exact agree_invalidResult hpc h h1 h2

omit hpc in
theorem agree_dataAddr (h : AgreeOnWritten s u) {i : Instr}
    (hread : ∀ r ∈ registersRead i, isWritten r s = true) : dataAddr i u = dataAddr i s := by
  have h1 := hread _ (sources_mem_registersRead i).1
  have h2 := hread _ (sources_mem_registersRead i).2
  cases i with
  | load f => exact congrArg (fun d => some d.1) (agree_compute h .load h1 h2)
  | store f => exact congrArg (fun d => some d.1) (agree_compute h .store h1 h2)
  | _ => rfl

omit hpc in
theorem sameAnswer_next {R : State → State → Prop} {t v : State} (h : R t v) :
    SameAnswer R (.next t) (.next v) := by
  refine ⟨fun t' ht => ⟨v, rfl, ?_⟩, nofun, nofun⟩
  rw [next_eq_next] at ht
  exact ht ▸ h

omit hpc in
/-- An access stops at the same address from both states, or goes on in both. -/
theorem sameAnswer_access {R : State → State → Prop} (a : Word) {k l : Outcome}
    (hregions : u.regions = s.regions) (h : SameAnswer R k l) :
    SameAnswer R (access a s k) (access a u l) := by
  unfold access
  rw [hregions]
  split
  · exact ⟨nofun, fun _ hr => hr, nofun⟩
  · exact h
  · exact h

/-- An instruction answers alike from agreeing states, if it is skipped or reads written registers
only. -/
theorem sameAnswer_exec (h : AgreeOnWritten s u) {i : Instr}
    (hread : passes s.cond i.fields.mask = true → ∀ r ∈ registersRead i, isWritten r s = true) :
    SameAnswer AgreeOnWritten (exec i s) (exec i u) := by
  have ⟨_, _, hcond, _, _, hregions, _⟩ := h
  cases hp : passes s.cond i.fields.mask with
  | false =>
    rw [exec_skip hp, exec_skip (hcond ▸ hp)]
    exact sameAnswer_next (agree_skip hpc h)
  | true =>
    have hresult := sameAnswer_next (agree_resultOf hpc h (hread hp))
    rw [exec_pass hp, exec_pass (hcond ▸ hp), agree_dataAddr h (hread hp)]
    cases dataAddr i s with
    | none => exact hresult
    | some a => exact sameAnswer_access a hregions hresult

end Agreement

/-- What `readsOnlyWritten` says of a running CORE: the fetched instruction is skipped, or every
register it reads is written. -/
theorem registersRead_written {s : State} (hrun : s.halted = false)
    (hread : readsOnlyWritten s = true) (hpass : passes s.cond (fetched s).fields.mask = true) :
    ∀ r ∈ registersRead (fetched s), isWritten r s = true := by
  have hnone : unwrittenRead (fetched s) s = none := by
    rw [fetched_eq]
    simpa [readsOnlyWritten, hrun] using hread
  simpa [unwrittenRead, hpass, List.find?_eq_none] using hnone

/-- Settles O56: agreeing states fetch the same instruction, and it answers alike. -/
theorem unwrittenRegistersDoNotMatterUnlessRead :
    Obligations.UnwrittenRegistersDoNotMatterUnlessRead := by
  intro s u h hpc hread
  have ⟨_, _, _, hhalted, _, hregions, _⟩ := h
  cases hh : s.halted with
  | true =>
    rw [step_halted hh, step_halted (hhalted ▸ hh)]
    exact sameAnswer_next h
  | false =>
    rw [step_running hh, step_running (hhalted ▸ hh), agree_pcOf hpc h, agree_fetched hpc h]
    exact sameAnswer_access _ hregions
      (sameAnswer_exec (s := afterTrace hardware s) hpc (agree_afterTrace hpc h) (registersRead_written hh hread))

/-! ### Registers -/

/-- Settles O1. -/
theorem zeroRegisterReadsZeroAndDiscardsWrites :
    Obligations.ZeroRegisterReadsZeroAndDiscardsWrites :=
  fun s _ => ⟨readReg_zero s, rfl⟩

theorem regsUnchangedBut_writeReg (r : Reg) (v : Word) (s : State) :
    RegsUnchangedBut [r] s (writeReg r v s) := by
  intro q hq
  have hne : q ≠ r := by simpa using hq
  exact ⟨readReg_writeReg_ne s v hne, by simp [isWritten_writeReg, hne]⟩

/-- Settles O2. -/
theorem registerReadsTheLastValueWritten : Obligations.RegisterReadsTheLastValueWritten :=
  fun s r v hr => ⟨by simp [hr], regsUnchangedBut_writeReg r v s⟩

/-! ### `start` -/

theorem hostCommand_start {s : State} (h : s.halted = true) (a : Word) :
    hostCommand (.start a) s = .next (startAt a s) := by
  simp [hostCommand, whileHalted, h]

/-- The first step after `start(a)` executes the word a read at `a` answers. -/
theorem step_startAt {a : Word} {s : State} (h : kindAt a s.regions ≠ none) :
    step (startAt a s) =
      exec (decode (wordRead hardware a s)) (afterTrace hardware (startAt a s)) := by
  have hfetch : fetched (startAt a s) = decode (wordRead hardware a s) := by
    rw [fetched_eq, fetchWord, pcOf_startAt]
    exact congrArg (decode ∘ MemAnswer.word) (memRead_congr hardware a rfl rfl rfl)
  rw [step_running (startAt_halted s a), pcOf_startAt, hfetch]
  exact access_admitted h

/-- Settles O44. -/
theorem startSetsOnlyThePcAndHalted : Obligations.StartSetsOnlyThePcAndHalted := by
  intro a s hhalted
  refine ⟨startAt a s, hostCommand_start hhalted a, rfl, pcOf_startAt s a, ?_, rfl,
    regsUnchangedBut_writeReg 15 a s, ⟨fun x => readWord_startAt s x a, rfl⟩, ⟨rfl, rfl, rfl⟩, rfl,
    step_startAt⟩
  change isWritten 15 (writeReg 15 a s) = true
  simp [isWritten_writeReg]

/-! ### The ALU's answer for an executed instruction -/

/-- The model's ALU call is the one the statements are said in. -/
theorem compute_eq_aluOf (i : Instr) (s : State) :
    compute hardware i.op i.fields s = aluOf i s := compute_hardware i.op i.fields s

theorem aluOf_eq_ea {i : Instr} (s : State) (h : i.op = .load ∨ i.op = .store) :
    aluOf i s = (ea i.fields s, flagOf (ea i.fields s)) := by
  have hea : wrap ((readReg i.fields.s1 s).toInt + (wrap (rightOf i.fields s)).toInt) =
      ea i.fields s := by
    rw [ea, leftOf, wrap_add, wrap_add, wrap_toInt, wrap_toInt]
  rcases h with hop | hop <;> simp only [aluOf, hop, alu, settle_wrap, hea]

theorem compute_load_fst (f : Fields) (s : State) : (compute hardware .load f s).1 = ea f s :=
  congrArg Prod.fst ((compute_eq_aluOf (.load f) s).trans (aluOf_eq_ea s (.inl rfl)))

theorem compute_store_fst (f : Fields) (s : State) : (compute hardware .store f s).1 = ea f s :=
  congrArg Prod.fst ((compute_eq_aluOf (.store f) s).trans (aluOf_eq_ea s (.inr rfl)))

/-- The fetch and the trace event change no operand. -/
theorem aluOf_afterTrace (i : Instr) (s : State) : aluOf i (afterTrace hardware s) = aluOf i s := rfl

/-! ### What an executed instruction leaves -/

section Result

variable (s : State)

theorem postAdvance_cond (a : Word) (wrote15 : Bool) :
    (postAdvance hardware a wrote15 s).cond = s.cond := by
  cases wrote15 <;> rfl

theorem postAdvance_halted (a : Word) (wrote15 : Bool) :
    (postAdvance hardware a wrote15 s).halted = s.halted := by
  cases wrote15 <;> rfl

theorem postAdvance_regions (a : Word) (wrote15 : Bool) :
    (postAdvance hardware a wrote15 s).regions = s.regions := by
  cases wrote15 <;> rfl

theorem postAdvance_mem (a : Word) (wrote15 : Bool) :
    (postAdvance hardware a wrote15 s).mem = s.mem := by
  cases wrote15 <;> rfl

theorem postAdvance_device (a : Word) (wrote15 : Bool) :
    (postAdvance hardware a wrote15 s).device = s.device := by
  cases wrote15 <;> rfl

theorem postAdvance_register (a : Word) (wrote15 : Bool) {r : Reg} (hr : r ≠ 15) :
    readReg r (postAdvance hardware a wrote15 s) = readReg r s ∧
      isWritten r (postAdvance hardware a wrote15 s) = isWritten r s := by
  cases wrote15 with
  | true => exact ⟨rfl, rfl⟩
  | false => exact regsUnchangedBut_writeReg pcReg _ s r (by simpa [pcReg] using hr)

/-- R29: `cond` is the flag of the ALU. -/
theorem resultOf_cond (i : Instr) : (resultOf i s).cond = (aluOf i s).2 := by
  rw [← compute_eq_aluOf]
  cases i <;>
    simp only [resultOf, arithResult, loadResult, storeResult, haltResult, invalidResult,
      postAdvance_cond, writeReg_cond, logAccess_cond, afterRead_cond, afterWrite_cond,
      enterHalted_cond, recordFlag_cond, Instr.op, Instr.fields]

/-- R30: HALT and the flag V halt the CORE, and nothing else does. -/
theorem resultOf_halted (i : Instr) :
    (resultOf i s).halted = (s.halted || decide (i.op = .halt) || (aluOf i s).2 == .v) := by
  rw [← compute_eq_aluOf]
  cases i <;>
    simp [resultOf, arithResult, loadResult, storeResult, haltResult, invalidResult,
      postAdvance_halted, Instr.op, Instr.fields, -postAdvance_hardware]

theorem resultOf_regions (i : Instr) : (resultOf i s).regions = s.regions := by
  cases i <;>
    simp only [resultOf, arithResult, loadResult, storeResult, haltResult, invalidResult,
      postAdvance_regions, writeReg_regions, logAccess_regions, afterRead_regions,
      afterWrite_regions, enterHalted_regions, recordFlag_regions]

/-- A register other than r15 keeps its value and its mark, if the advance and a write to `t` are the only
register writes and it is not `t`. -/
theorem postAdvance_writeReg_register (a : Word) (wrote15 : Bool) (t : Reg) (v : Word) {r : Reg}
    (hpc : r ≠ 15) (ht : r ≠ t) :
    readReg r (postAdvance hardware a wrote15 (writeReg t v s)) = readReg r s ∧
      isWritten r (postAdvance hardware a wrote15 (writeReg t v s)) = isWritten r s := by
  obtain ⟨hread, hwritten⟩ := postAdvance_register (writeReg t v s) a wrote15 hpc
  exact ⟨hread.trans (by simp [ht]), hwritten.trans (by simp [isWritten_writeReg, ht])⟩

theorem arithResult_register (op : Opcode) (f : Fields) {r : Reg} (hpc : r ≠ 15) (ht : r ≠ f.t) :
    readReg r (arithResult op f s) = readReg r s ∧
      isWritten r (arithResult op f s) = isWritten r s := by
  unfold arithResult
  simpa only [readReg_recordFlag, isWritten_recordFlag] using
    postAdvance_writeReg_register (recordFlag (compute hardware op f s).2 s) (pcOf s) (f.t == pcReg)
      f.t (compute hardware op f s).1 hpc ht

theorem loadResult_register (f : Fields) {r : Reg} (hpc : r ≠ 15) (ht : r ≠ f.t) :
    readReg r (loadResult f s) = readReg r s ∧ isWritten r (loadResult f s) = isWritten r s := by
  obtain ⟨hread, hwritten⟩ := postAdvance_writeReg_register _ (pcOf s) (f.t == pcReg) f.t _ hpc ht
  exact ⟨hread.trans (by simp), hwritten.trans (by simp)⟩

/-- The registers an executed instruction changes are r15 and a written target (R25, R103). -/
theorem resultOf_register (i : Instr) {r : Reg} (hpc : r ≠ 15)
    (ht : ¬ (r = i.fields.t ∧ (targetValue i s).isSome = true)) :
    readReg r (resultOf i s) = readReg r s ∧ isWritten r (resultOf i s) = isWritten r s := by
  have hne : r ≠ pcReg := hpc
  cases i with
  | halt f => simp [resultOf, haltResult, isWritten_writeReg, hne]
  | load f => exact loadResult_register s f hpc fun h => ht ⟨h, rfl⟩
  | store f => simp [resultOf, storeResult, isWritten_writeReg, hne]
  | add f => exact arithResult_register s .add f hpc fun h => ht ⟨h, rfl⟩
  | sub f => exact arithResult_register s .sub f hpc fun h => ht ⟨h, rfl⟩
  | mul f => exact arithResult_register s .mul f hpc fun h => ht ⟨h, rfl⟩
  | div f => exact arithResult_register s .div f hpc fun h => ht ⟨h, rfl⟩
  | invalid7 f => simp [resultOf, invalidResult, isWritten_writeReg, hne]
  | invalidHigh f => simp [resultOf, invalidResult, isWritten_writeReg, hne]

/-- Whether an instruction writes its target is a matter of the instruction alone. -/
theorem targetValue_isSome_congr (i : Instr) (s u : State) :
    (targetValue i s).isSome = (targetValue i u).isSome := by
  cases i <;> simp only [targetValue, Option.isSome_some, Option.isSome_none]

variable {s}

theorem memoryUnchanged_of_eq {t : State} (hmem : t.mem = s.mem) (hdevice : t.device = s.device) :
    MemoryUnchanged s t := ⟨fun a => congrArg (Memory.read · a.toNat) hmem, hdevice⟩

theorem arithResult_memory (op : Opcode) (f : Fields) (s : State) :
    MemoryUnchanged s (arithResult op f s) := by
  refine memoryUnchanged_of_eq ?_ ?_
  · rw [arithResult, postAdvance_mem, writeReg_mem, recordFlag_mem]
  · rw [arithResult, postAdvance_device, writeReg_device, recordFlag_device]

theorem invalidResult_memory (f : Fields) (s : State) : MemoryUnchanged s (invalidResult f s) :=
  memoryUnchanged_of_eq (recordFlag_mem s _) (recordFlag_device s _)

theorem haltResult_memory (f : Fields) (s : State) : MemoryUnchanged s (haltResult f s) :=
  memoryUnchanged_of_eq (recordFlag_mem s _) (recordFlag_device s _)

theorem loadResult_memory {f : Fields} (h : isStorage (ea f s) s = true) :
    MemoryUnchanged s (loadResult f s) := by
  have hread : afterRead hardware (ea f s) (recordFlag (compute hardware .load f s).2 s) =
      recordFlag (compute hardware .load f s).2 s :=
    afterRead_storage hardware ((isStorage_congr _ (recordFlag_regions s _)).trans h)
  rw [loadResult, compute_load_fst, hread]
  refine memoryUnchanged_of_eq ?_ ?_
  · rw [postAdvance_mem, writeReg_mem, logAccess_mem, recordFlag_mem]
  · rw [postAdvance_device, writeReg_device, logAccess_device, recordFlag_device]

/-- A STORE into storage changes the one word at its address (R50, R118). -/
theorem storeResult_memory {f : Fields} (h : isStorage (ea f s) s = true) :
    OnlyStored (ea f s) (readReg f.t s) s (storeResult f s) := by
  have hwrite : afterWrite hardware (ea f s) (readReg f.t s)
      (recordFlag (compute hardware .store f s).2 s) =
      storeWord (ea f s) (readReg f.t s) (recordFlag (compute hardware .store f s).2 s) :=
    afterWrite_storage hardware ((isStorage_congr _ (recordFlag_regions s _)).trans h)
  rw [storeResult, compute_store_fst, hwrite]
  refine ⟨fun a => ?_, ?_⟩
  · rw [readWord_writeReg, readWord_logAccess, readWord_storeWord, readWord_recordFlag]
  · rw [writeReg_device, logAccess_device, storeWord_device, recordFlag_device]

/-- An executed instruction none of whose accesses is at a device changes no word of memory but a
stored one, and no device's state. -/
theorem resultOf_memory {i : Instr}
    (h : i.op = .load ∨ i.op = .store → isStorage (ea i.fields s) s = true) :
    (resultOf i s).device = s.device ∧
      ∀ a : Word, ¬ (i.op = .store ∧ a = ea i.fields s) →
        readWord a (resultOf i s) = readWord a s := by
  have unchanged {t : State} (ht : MemoryUnchanged s t) : t.device = s.device ∧
      ∀ a : Word, ¬ (i.op = .store ∧ a = ea i.fields s) → readWord a t = readWord a s :=
    ⟨ht.2, fun a _ => ht.1 a⟩
  cases i with
  | halt f => exact unchanged (haltResult_memory f s)
  | load f => exact unchanged (loadResult_memory (h (.inl rfl)))
  | store f =>
    obtain ⟨hword, hdevice⟩ := storeResult_memory (h (.inr rfl))
    exact ⟨hdevice, fun a ha => (hword a).trans (if_neg fun hea => ha ⟨rfl, hea⟩)⟩
  | add f => exact unchanged (arithResult_memory .add f s)
  | sub f => exact unchanged (arithResult_memory .sub f s)
  | mul f => exact unchanged (arithResult_memory .mul f s)
  | div f => exact unchanged (arithResult_memory .div f s)
  | invalid7 f => exact unchanged (invalidResult_memory f s)
  | invalidHigh f => exact unchanged (invalidResult_memory f s)

/-- A fetch from storage changes no word of memory and no device's state. -/
theorem afterTrace_memory (h : isStorage (pcOf s) s = true) :
    MemoryUnchanged s (afterTrace hardware s) := by
  refine memoryUnchanged_of_eq ?_ ?_
  · rw [afterTrace_mem, afterRead_storage hardware h]
  · rw [afterTrace_device, afterRead_storage hardware h]

end Result

/-! ### What a step writes -/

theorem exec_cond {i : Instr} {s t : State} (h : exec i s = .next t) :
    (passes s.cond i.fields.mask = true → t.cond = (aluOf i s).2) ∧
      (passes s.cond i.fields.mask = false → t.cond = s.cond) := by
  rcases exec_next.mp h with ⟨hskip, rfl⟩ | ⟨hpass, -, rfl⟩
  · simp [hskip]
  · simp [hpass, resultOf_cond]

/-- INVALID and a zero divisor give the flag V (R81, R90). -/
theorem aluOf_flag_v {i : Instr} {s : State}
    (h : i.op = .invalid ∨ (i.op = .div ∧ wrap (rightOf i.fields s) = 0)) : (aluOf i s).2 = .v := by
  rcases h with hop | ⟨hop, hzero⟩
  · simp [aluOf, alu, hop, faultResult]
  · simp [aluOf, alu, hop, hzero, faultResult]

theorem hostCommand_cond {c : HostCommand} {s t : State} (h : hostCommand c s = .next t) :
    t.cond = s.cond := by
  obtain ⟨-, hdone⟩ := hostCommand_next h
  rcases hdone with ⟨a, v, -, -, rfl⟩ | ⟨n, -, rfl⟩ | ⟨n, -, rfl⟩ | ⟨a, -, rfl⟩ <;> rfl

/-- Settles O30. -/
theorem onlyAnExecutedInstructionWritesCond : Obligations.OnlyAnExecutedInstructionWritesCond := by
  refine ⟨fun i s t h => exec_cond h, fun f s => ?_, fun i s t h hpass hv => ?_,
    fun c s t h => hostCommand_cond h⟩
  · exact ⟨aluOf_eq_ea s (.inl rfl), aluOf_eq_ea s (.inr rfl), rfl, aluOf_flag_v (.inl rfl),
      aluOf_flag_v (.inl rfl)⟩
  · exact ((exec_cond h).1 hpass).trans (aluOf_flag_v hv)

/-- Settles O39: the fetch changes no register, and no memory where it is from storage; what is left is
the frame of the skip and of an executed instruction. -/
theorem stepChangesOnlyTargetPcAndStoredWord : Obligations.StepChangesOnlyTargetPcAndStoredWord := by
  intro s t hrun hstep
  rcases step_next_running hrun hstep with ⟨hskip, rfl⟩ | ⟨hpass, rfl⟩
  · refine ⟨rfl, fun r hr _ => ?_, fun hpc _ => ?_⟩
    · exact regsUnchangedBut_writeReg pcReg _ (afterTrace hardware s) r (by simpa [pcReg] using hr)
    · obtain ⟨hword, hdevice⟩ := afterTrace_memory hpc
      exact ⟨hdevice, fun a _ => hword a⟩
  · refine ⟨resultOf_regions _ _, fun r hr ht => ?_, fun hpc hdata => ?_⟩
    · refine resultOf_register (afterTrace hardware s) (fetched s) hr fun ⟨htarget, hsome⟩ => ?_
      rw [targetValue_isSome_congr _ _ s] at hsome
      exact ht ⟨hpass, htarget, hsome⟩
    · obtain ⟨hword, hdevice⟩ := afterTrace_memory hpc
      obtain ⟨hdevice', hword'⟩ := resultOf_memory (s := afterTrace hardware s) (hdata hpass)
      exact ⟨hdevice'.trans hdevice, fun a ha =>
        (hword' a fun hstored => ha ⟨hpass, hstored⟩).trans (hword a)⟩

/-- Settles O41. -/
theorem haltedIsSetOnlyByHaltOrFault : Obligations.HaltedIsSetOnlyByHaltOrFault := by
  refine ⟨fun s t hrun hstep => ?_, fun s t hhalted hstep => ?_, fun c s t hhalted hcmd => ?_⟩
  · rcases step_next_running hrun hstep with ⟨hskip, rfl⟩ | ⟨hpass, rfl⟩
    · simp [hskip, hrun]
    · simp [hpass, hrun, resultOf_halted, aluOf_afterTrace]
  · rw [step_halted hhalted, next_eq_next] at hstep
    exact hstep ▸ hhalted
  · obtain ⟨-, hdone⟩ := hostCommand_next hcmd
    rcases hdone with ⟨a, v, rfl, -, rfl⟩ | ⟨n, rfl, rfl⟩ | ⟨n, rfl, rfl⟩ | ⟨a, rfl, rfl⟩ <;>
      simp [hhalted]

end Sys2Proof.Proofs
end

section
/-! PROOF. The statements about memory (spec/20_memory.md): what an executed LOAD or STORE leaves under any
device behaviour, the accesses of a step, and the theorems that settle the statements. -/

namespace Sys2Proof.Proofs

open Sys2Proof.Machine Sys2Proof.Claims

/-! ### A device's answer -/

theorem lastSet_eq_foldl (a : Word) (cs : List (Word × Word)) (w : Word) :
    lastSet a cs w = cs.foldl (fun w c => if c.1 = a then c.2 else w) w := by
  induction cs generalizing w with
  | nil => rfl
  | cons c cs ih => exact ih _

/-- The devices' state and the contents are all that `DeviceActed` speaks of. -/
theorem deviceActed_of_eq {d : MemAnswer} {s t : State} (hdevice : t.device = d.state)
    (hmem : t.mem = Memory.applyChanges d.changes s.mem) : DeviceActed d s t := by
  refine ⟨hdevice, fun a => ?_⟩
  rw [lastSet_eq_foldl, readWord, hmem]
  exact Memory.read_applyChanges d.changes s.mem a

/-! ### The advance and the write of the target, after the flag -/

/-- The state `m` differs from `s` in the flag `fl`, in being halted if `halts`, in memory and in the access
record at most: an executed instruction's state before it writes a register. -/
def FlagOnly (fl : Flag) (halts : Bool) (s m : State) : Prop :=
  m.regs = s.regs ∧ m.written = s.written ∧ m.cond = fl ∧ m.halted = (s.halted || halts) ∧
    RestUnchanged s m

section Registers

variable {fl : Flag} {halts : Bool} {s m : State}

theorem flagOnly_recordFlag (fl : Flag) (s : State) : FlagOnly fl (fl == .v) s (recordFlag fl s) :=
  ⟨recordFlag_regs s fl, recordFlag_written s fl, recordFlag_cond s fl, recordFlag_halted s fl,
    recordFlag_regions s fl, recordFlag_observers s fl, recordFlag_trace s fl⟩

theorem flagOnly_recordFlag_flagOf (v : Word) (s : State) :
    FlagOnly (flagOf v) false s (recordFlag (flagOf v) s) :=
  beq_eq_false_iff_ne.mpr (flagOf_ne_v v) ▸ flagOnly_recordFlag (flagOf v) s

theorem flagOnly_logAccess (h : FlagOnly fl halts s m) (k : AccessKind) (a v : Word) :
    FlagOnly fl halts s (logAccess k a v m) := h

theorem flagOnly_takeEffect (h : FlagOnly fl halts s m) (d : MemAnswer) :
    FlagOnly fl halts s (takeEffect d m) := h

theorem flagOnly_register (h : FlagOnly fl halts s m) (r : Reg) :
    readReg r m = readReg r s ∧ isWritten r m = isWritten r s := by
  obtain ⟨hregs, hwritten, -⟩ := h
  simp [readReg, isWritten, hregs, hwritten]

/-- An instruction that writes no target: the flag, then the advance. -/
theorem onlyAdvanced_of_flagOnly (h : FlagOnly fl halts s m) :
    OnlyAdvanced fl halts s (writeReg pcReg (nextAddr (pcOf s)) m) := by
  have ⟨_, _, hcond, hhalted, hrest⟩ := h
  refine ⟨readReg_writeReg_self m pcReg _, hcond, hhalted, by simp [isWritten_writeReg, pcReg],
    fun r hr => ?_, hrest⟩
  obtain ⟨hread, hwritten⟩ := regsUnchangedBut_writeReg pcReg (nextAddr (pcOf s)) m r hr
  obtain ⟨hread', hwritten'⟩ := flagOnly_register h r
  exact ⟨hread.trans hread', hwritten.trans hwritten'⟩

/-- An instruction that writes its target: the flag, the target, and the advance unless the target is
r15 (R103, R104). -/
theorem targetWritten_of_flagOnly (h : FlagOnly fl halts s m) (f : Fields) (v : Word) :
    TargetWritten f v fl halts s
      (postAdvance hardware (pcOf s) (f.t == pcReg) (writeReg f.t v m)) := by
  have ⟨_, _, hcond, hhalted, hrest⟩ := h
  have hframe : RegsUnchangedBut [f.t, 15] s
      (postAdvance hardware (pcOf s) (f.t == pcReg) (writeReg f.t v m)) := by
    intro r hr
    obtain ⟨htarget, hpc⟩ : r ≠ f.t ∧ r ≠ 15 := by simpa using hr
    obtain ⟨hread, hwritten⟩ :=
      postAdvance_writeReg_register m (pcOf s) (f.t == pcReg) f.t v hpc htarget
    obtain ⟨hread', hwritten'⟩ := flagOnly_register h r
    exact ⟨hread.trans hread', hwritten.trans hwritten'⟩
  by_cases ht : f.t = 15
  · rw [show (f.t == pcReg) = true from beq_iff_eq.mpr ht] at hframe ⊢
    refine ⟨readReg_writeReg_self m f.t v, ?_, hcond, hhalted, ?_, ?_, hframe, hrest⟩ <;>
      simp [ht, isWritten_writeReg]
  · rw [show (f.t == pcReg) = false from beq_eq_false_iff_ne.mpr ht] at hframe ⊢
    refine ⟨?_, ?_, hcond, hhalted, ?_, ?_, hframe, hrest⟩
    · exact (readReg_writeReg_ne (j := pcReg) _ _ ht).trans (readReg_writeReg_self m f.t v)
    · rw [if_neg ht]
      exact readReg_writeReg_self _ pcReg _
    · simp [isWritten_writeReg]
    · simp [isWritten_writeReg, pcReg]

end Registers

/-! ### LOAD and STORE under any device behaviour -/

theorem compute_load (f : Fields) (s : State) :
    compute hardware .load f s = (ea f s, flagOf (ea f s)) :=
  (compute_eq_aluOf (.load f) s).trans (aluOf_eq_ea s (.inl rfl))

theorem compute_store (f : Fields) (s : State) :
    compute hardware .store f s = (ea f s, flagOf (ea f s)) :=
  (compute_eq_aluOf (.store f) s).trans (aluOf_eq_ea s (.inr rfl))

/-- The state an executed LOAD leaves with the devices `d`. -/
def loadUnder (d : DeviceBehaviour) (f : Fields) (s : State) : State :=
  postAdvance hardware (pcOf s) (f.t == pcReg)
    (writeReg f.t (wordRead (withDevices d) (ea f s) s)
      (logAccess .load (ea f s) (wordRead (withDevices d) (ea f s) s)
        (afterRead (withDevices d) (ea f s) (recordFlag (flagOf (ea f s)) s))))

/-- The state an executed STORE leaves with the devices `d`. -/
def storeUnder (d : DeviceBehaviour) (f : Fields) (s : State) : State :=
  writeReg pcReg (nextAddr (pcOf s))
    (logAccess .store (ea f s) (readReg f.t s)
      (afterWrite (withDevices d) (ea f s) (readReg f.t s) (recordFlag (flagOf (ea f s)) s)))

section LoadStore

variable {f : Fields} {s : State}

theorem loadUnder_config (f : Fields) (s : State) :
    loadUnder Config.device f s = loadResult f s := by
  rw [loadResult, compute_load]
  rfl

theorem storeUnder_config (f : Fields) (s : State) :
    storeUnder Config.device f s = storeResult f s := by
  rw [storeResult, compute_store]
  rfl

theorem execUnder_load_admitted (d : DeviceBehaviour) (hpass : passes s.cond f.mask = true)
    (h : kindAt (ea f s) s.regions ≠ none) :
    execUnder (withDevices d) (.load f) s = .next (loadUnder d f s) := by
  have hcompute : compute (withDevices d) .load f s = (ea f s, flagOf (ea f s)) := compute_load f s
  rw [execUnder, loadOp, conditional_pass hpass, hcompute, access_admitted h]
  rfl

theorem execUnder_store_admitted (d : DeviceBehaviour) (hpass : passes s.cond f.mask = true)
    (h : kindAt (ea f s) s.regions ≠ none) :
    execUnder (withDevices d) (.store f) s = .next (storeUnder d f s) := by
  have hcompute : compute (withDevices d) .store f s = (ea f s, flagOf (ea f s)) := compute_store f s
  rw [execUnder, storeOp, conditional_pass hpass, hcompute, access_admitted h]
  rfl

theorem exec_load_admitted (hpass : passes s.cond f.mask = true)
    (h : kindAt (ea f s) s.regions ≠ none) : exec (.load f) s = .next (loadResult f s) :=
  loadUnder_config f s ▸ execUnder_load_admitted Config.device hpass h

theorem exec_store_admitted (hpass : passes s.cond f.mask = true)
    (h : kindAt (ea f s) s.regions ≠ none) : exec (.store f) s = .next (storeResult f s) :=
  storeUnder_config f s ▸ execUnder_store_admitted Config.device hpass h

theorem loadUnder_targetWritten (d : DeviceBehaviour) (f : Fields) (s : State) :
    TargetWritten f (wordRead (withDevices d) (ea f s) s) (flagOf (ea f s)) false s
      (loadUnder d f s) :=
  targetWritten_of_flagOnly
    (flagOnly_logAccess (flagOnly_takeEffect (flagOnly_recordFlag_flagOf (ea f s) s) _) _ _ _) f _

theorem storeUnder_onlyAdvanced (d : DeviceBehaviour) (f : Fields) (s : State) :
    OnlyAdvanced (flagOf (ea f s)) false s (storeUnder d f s) :=
  onlyAdvanced_of_flagOnly
    (flagOnly_logAccess (flagOnly_takeEffect (flagOnly_recordFlag_flagOf (ea f s) s) _) _ _ _)

theorem loadResult_targetWritten (f : Fields) (s : State) :
    TargetWritten f (wordRead hardware (ea f s) s) (flagOf (ea f s)) false s (loadResult f s) :=
  loadUnder_config f s ▸ loadUnder_targetWritten Config.device f s

theorem storeResult_onlyAdvanced (f : Fields) (s : State) :
    OnlyAdvanced (flagOf (ea f s)) false s (storeResult f s) :=
  storeUnder_config f s ▸ storeUnder_onlyAdvanced Config.device f s

theorem postAdvance_bus (s : State) (a : Word) (wrote15 : Bool) :
    (postAdvance hardware a wrote15 s).bus = s.bus := by
  cases wrote15 <;> rfl

theorem loadUnder_bus (d : DeviceBehaviour) (f : Fields) (s : State) :
    (loadUnder d f s).bus =
      { kind := .load, addr := ea f s, word := wordRead (withDevices d) (ea f s) s } :: s.bus := by
  rw [loadUnder, postAdvance_bus, writeReg_bus, logAccess_bus, afterRead_bus, recordFlag_bus]

theorem storeUnder_bus (d : DeviceBehaviour) (f : Fields) (s : State) :
    (storeUnder d f s).bus =
      { kind := .store, addr := ea f s, word := readReg f.t s } :: s.bus := by
  rw [storeUnder, writeReg_bus, logAccess_bus, afterWrite_bus, recordFlag_bus]

theorem loadResult_bus (f : Fields) (s : State) :
    (loadResult f s).bus =
      { kind := .load, addr := ea f s, word := wordRead hardware (ea f s) s } :: s.bus :=
  loadUnder_config f s ▸ loadUnder_bus Config.device f s

theorem storeResult_bus (f : Fields) (s : State) :
    (storeResult f s).bus = { kind := .store, addr := ea f s, word := readReg f.t s } :: s.bus :=
  storeUnder_config f s ▸ storeUnder_bus Config.device f s

/-- The memory after a LOAD is as the one read leaves it, for a target of r0 too (R50). -/
theorem loadUnder_deviceActed (d : DeviceBehaviour) (f : Fields) (s : State) :
    DeviceActed (memRead (withDevices d) (ea f s) s) s (loadUnder d f s) := by
  have hread : memRead (withDevices d) (ea f s) (recordFlag (flagOf (ea f s)) s) =
      memRead (withDevices d) (ea f s) s :=
    memRead_congr _ _ (recordFlag_regions s _) (recordFlag_mem s _) (recordFlag_device s _)
  refine deviceActed_of_eq ?_ ?_
  · rw [loadUnder, postAdvance_device, writeReg_device, logAccess_device, afterRead_device, hread]
  · rw [loadUnder, postAdvance_mem, writeReg_mem, logAccess_mem, afterRead_mem, hread, recordFlag_mem]

theorem storeUnder_deviceActed (d : DeviceBehaviour) (f : Fields) (s : State) :
    DeviceActed (memWrite (withDevices d) (ea f s) (readReg f.t s) s) s (storeUnder d f s) := by
  have hwrite : memWrite (withDevices d) (ea f s) (readReg f.t s) (recordFlag (flagOf (ea f s)) s) =
      memWrite (withDevices d) (ea f s) (readReg f.t s) s :=
    memWrite_congr _ _ _ (recordFlag_regions s _) (recordFlag_device s _)
  refine deviceActed_of_eq ?_ ?_
  · rw [storeUnder, writeReg_device, logAccess_device, afterWrite_device, hwrite]
  · rw [storeUnder, writeReg_mem, logAccess_mem, afterWrite_mem, hwrite, recordFlag_mem]

end LoadStore

/-! ### Devices -/

section Devices

variable (d : DeviceBehaviour) {s : State}

/-- A fetch leaves the memory as its read does (R42, R50). -/
theorem afterTrace_deviceActed (s : State) :
    DeviceActed (memRead (withDevices d) (pcOf s) s) s (afterTrace (withDevices d) s) :=
  deviceActed_of_eq rfl rfl

theorem stepUnder_running {c : Params} (hrun : s.halted = false)
    (h : kindAt (pcOf s) s.regions ≠ none) :
    stepUnder c s = execUnder c (decode (fetchWord c s)) (afterTrace c s) := by
  rw [stepUnder, cycle, if_neg (by simp [hrun]), access_admitted h]

theorem memRead_withDevices {a : Word} (h : kindAt a s.regions = some .device) :
    memRead (withDevices d) a s = d.read s.device a (readWord a s) :=
  memRead_device (withDevices d) h

theorem load_device {f : Fields} (hpass : passes s.cond f.mask = true)
    (h : kindAt (ea f s) s.regions = some .device) :
    ∃ t, execUnder (withDevices d) (.load f) s = .next t ∧
      TargetWritten f (d.read s.device (ea f s) (readWord (ea f s) s)).word (flagOf (ea f s)) false s t ∧
      DeviceActed (d.read s.device (ea f s) (readWord (ea f s) s)) s t ∧
      t.bus = { kind := .load, addr := ea f s,
                word := (d.read s.device (ea f s) (readWord (ea f s) s)).word } :: s.bus := by
  rw [← memRead_withDevices d h]
  exact ⟨loadUnder d f s, execUnder_load_admitted d hpass (by simp [h]), loadUnder_targetWritten d f s,
    loadUnder_deviceActed d f s, loadUnder_bus d f s⟩

theorem store_device {f : Fields} (hpass : passes s.cond f.mask = true)
    (h : kindAt (ea f s) s.regions = some .device) :
    ∃ t, execUnder (withDevices d) (.store f) s = .next t ∧
      OnlyAdvanced (flagOf (ea f s)) false s t ∧
      DeviceActed (d.write s.device (ea f s) (readReg f.t s)) s t ∧
      t.bus = { kind := .store, addr := ea f s, word := readReg f.t s } :: s.bus := by
  have hacted := storeUnder_deviceActed d f s
  rw [memWrite_device (withDevices d) h] at hacted
  exact ⟨storeUnder d f s, execUnder_store_admitted d hpass (by simp [h]), storeUnder_onlyAdvanced d f s,
    hacted, storeUnder_bus d f s⟩

end Devices

theorem stepUnder_hardware (s : State) : stepUnder hardware s = step s :=
  congrArg (cycle hardware · s) (funext₂ execUnder_hardware)

/-- Settles O57: LOAD, STORE and the fetch each leave what their one access answers, and `hardware` is
`withDevices` at the free behaviour. -/
theorem deviceAccessesActAsTheMemParameterSays :
    Obligations.DeviceAccessesActAsTheMemParameterSays := by
  refine ⟨fun d f s hpass h => ⟨load_device d hpass h, store_device d hpass h⟩, fun d s hrun h => ?_,
    execUnder_hardware, stepUnder_hardware⟩
  rw [← memRead_withDevices d h]
  exact ⟨afterTrace (withDevices d) s, stepUnder_running hrun (by simp [pcOf, pcReg, h]), rfl, rfl, rfl, rfl,
    rfl, rfl, afterTrace_deviceActed d s, rfl⟩

/-! ### The accesses of a step -/

/-- The accesses an executed instruction makes, the fetch apart (R50): one of a LOAD or a STORE. -/
def dataAccesses (i : Instr) (s : State) : List Access :=
  match i.op with
  | .load => [{ kind := .load, addr := ea i.fields s, word := wordRead hardware (ea i.fields s) s }]
  | .store => [{ kind := .store, addr := ea i.fields s, word := readReg i.fields.t s }]
  | _ => []

theorem arithResult_bus (op : Opcode) (f : Fields) (s : State) : (arithResult op f s).bus = s.bus := by
  rw [arithResult, postAdvance_bus, writeReg_bus, recordFlag_bus]

theorem resultOf_bus (i : Instr) (s : State) :
    (resultOf i s).bus = dataAccesses i s ++ s.bus := by
  cases i with
  | halt f => exact recordFlag_bus s _
  | load f => exact loadResult_bus f s
  | store f => exact storeResult_bus f s
  | add f => exact arithResult_bus .add f s
  | sub f => exact arithResult_bus .sub f s
  | mul f => exact arithResult_bus .mul f s
  | div f => exact arithResult_bus .div f s
  | invalid7 f => exact recordFlag_bus s _
  | invalidHigh f => exact recordFlag_bus s _

/-- Settles O38: the fetch is recorded before the instruction, which adds its own access, or none when it
is skipped. -/
theorem stepMakesExactlyItsAccesses : Obligations.StepMakesExactlyItsAccesses := by
  intro s t hrun hstep
  rcases step_next_running hrun hstep with ⟨hskip, rfl⟩ | ⟨hpass, rfl⟩
  · rw [if_neg (by simp [hskip])]
    rfl
  · rw [if_pos hpass, resultOf_bus]
    rfl

/-! ### A stored word is read back -/

section StoredWord

variable {f : Fields} {s : State}

theorem exec_store_eq_storeResult {t : State} (hpass : passes s.cond f.mask = true)
    (h : exec (.store f) s = .next t) : t = storeResult f s := by
  rcases exec_next.mp h with ⟨hskip, -⟩ | ⟨-, -, ht⟩
  · exact absurd (hpass.symm.trans hskip) nofun
  · exact ht

theorem readWord_storeResult (h : isStorage (ea f s) s = true) :
    readWord (ea f s) (storeResult f s) = readReg f.t s := by
  obtain ⟨hword, -⟩ := storeResult_memory h
  exact (hword _).trans (if_pos rfl)

/-- A fetch from storage executes the word held there. -/
theorem step_storage (hrun : s.halted = false) (h : isStorage (pcOf s) s = true) :
    step s = exec (decode (readWord (pcOf s) s)) (afterTrace hardware s) := by
  rw [step_running hrun, access_admitted (isStorage_admitted h), fetched_eq, fetchWord,
    wordRead_storage hardware h]

end StoredWord

/-- Settles O26: the LOAD's read is of storage, where the STORE left its word. -/
theorem storeThenLoadReturnsTheStoredWord : Obligations.StoreThenLoadReturnsTheStoredWord := by
  intro f g s t hpassS hstore hstorage hpassL hea
  obtain rfl := exec_store_eq_storeResult hpassS hstore
  have hregions : (storeResult f s).regions = s.regions := resultOf_regions s (.store f)
  have hstorage' : isStorage (ea g (storeResult f s)) (storeResult f s) = true := by
    rw [hea, isStorage_congr _ hregions, hstorage]
  refine ⟨_, exec_load_admitted hpassL (isStorage_admitted hstorage'), ?_⟩
  obtain ⟨htarget, -⟩ := loadResult_targetWritten g (storeResult f s)
  rw [htarget, wordRead_storage hardware hstorage', hea, readWord_storeResult hstorage]

/-- Settles O40: a later fetch reads storage, where the STORE left its word; a STORE over its own address
changes it only after the fetch. -/
theorem fetchSeesEveryEarlierStore : Obligations.FetchSeesEveryEarlierStore := by
  refine ⟨fun f s t hstore hpass hstorage u hmem hrun hpc hfetch => ?_,
    fun f s hrun hstorage hf hpass hea => ?_⟩
  · obtain rfl := exec_store_eq_storeResult hpass hstore
    have hpc' : pcOf u = ea f s := hpc
    rw [step_storage hrun (hpc' ▸ hfetch), hpc', hmem, readWord_storeResult hstorage]
  · have hstorage' : isStorage (ea f (afterTrace hardware s)) (afterTrace hardware s) = true :=
      hea ▸ hstorage
    have hstep : step s = .next (storeResult f (afterTrace hardware s)) := by
      rw [step_running hrun, hf]
      refine (access_admitted (isStorage_admitted hstorage)).trans ?_
      exact exec_store_admitted hpass (isStorage_admitted hstorage')
    rw [← hea]
    exact ⟨_, hstep, readWord_storeResult hstorage', storeResult_onlyAdvanced f _⟩

end Sys2Proof.Proofs
end

section
/-! PROOF. The statements about the encoding (spec/30_encoding.md): the fields and the opcode of a word, the
decoder after the encoder, what an executed ADD or SUB leaves, and the theorems that settle the statements. -/

namespace Sys2Proof.Proofs

open Sys2Proof.Machine Sys2Proof.Claims

/-! ### The word of an instruction -/

/-- A concatenation as a number: the upper part stands above the bits of the lower. -/
theorem toNat_append_eq_add {m n : Nat} (x : BitVec m) (y : BitVec n) :
    (x ++ y).toNat = x.toNat * 2 ^ n + y.toNat := by
  rw [BitVec.toNat_append, ← Nat.shiftLeft_add_eq_or_of_lt y.isLt, Nat.shiftLeft_eq]

/-- R69's formula holds of every opcode number, also of those it does not give. -/
theorem toNat_assembleWord (op : BitVec 4) (f : Fields) :
    (assembleWord op f).toNat =
      op.toNat * 2 ^ 28 + f.mask.toNat * 2 ^ 24 + f.t.val * 2 ^ 20 + f.s1.val * 2 ^ 16 +
        f.s2.val * 2 ^ 12 + f.off.toNat := by
  simp only [assembleWord, toNat_append_eq_add, BitVec.toNat_ofFin]
  omega

/-- The decoder reads every instruction back from its word (R61, R69). -/
theorem decode_encode (i : Instr) : decode (encode i) = i := by
  obtain ⟨hop, hfields⟩ := Laws.EncodingLayout.layout i
  rw [decode, hop, hfields]
  cases i <;> rfl

theorem opcodeField_le_six {i : Instr} (h : WellFormed i = true) : (opcodeField i).toNat ≤ 6 := by
  cases i with
  | invalid7 f => exact absurd h nofun
  | invalidHigh f => exact absurd h nofun
  | _ => simp [opcodeField]

/-- Settles O15. -/
theorem encodeFollowsTheFormulaAndDecodesBack :
    Obligations.EncodeFollowsTheFormulaAndDecodesBack :=
  fun i h => ⟨toNat_assembleWord (opcodeField i) i.fields, opcodeField_le_six h, decode_encode i⟩

/-- Settles O12. -/
theorem workedExampleEncodes : Obligations.WorkedExampleEncodes := ⟨by decide, by decide⟩

/-! ### The fields of a word -/

theorem decode_fields (w : Word) : (decode w).fields = fieldsOf w := by
  unfold decode
  split <;> rfl

/-- A group of bits as a number. -/
theorem toNat_extractLsb'_eq_div_mod (w : Word) (start len : Nat) :
    (w.extractLsb' start len).toNat = w.toNat / 2 ^ start % 2 ^ len := by
  rw [BitVec.extractLsb'_toNat, Nat.shiftRight_eq_div_pow]

/-- R63: the offset field is the two's complement reading of its 12 bits. -/
theorem toInt_off_fieldsOf (w : Word) :
    (fieldsOf w).off.toInt =
      if w.toNat % 4096 < 2048 then ((w.toNat % 4096 : Nat) : Int)
      else ((w.toNat % 4096 : Nat) : Int) - 4096 := by
  have hbits : (fieldsOf w).off.toNat = w.toNat % 4096 :=
    (toNat_extractLsb'_eq_div_mod w 0 12).trans (by rw [pow_zero, Nat.div_one]; rfl)
  rw [BitVec.toInt_eq_toNat_cond, hbits]
  split <;> split <;> omega

/-- Settles O13. -/
theorem decodedFieldsAreTheWordsBits : Obligations.DecodedFieldsAreTheWordsBits := by
  intro w
  have hupper := BitVec.toInt_lt (x := (fieldsOf w).off)
  rw [decode_fields]
  exact ⟨toNat_extractLsb'_eq_div_mod w 24 4, toNat_extractLsb'_eq_div_mod w 20 4,
    toNat_extractLsb'_eq_div_mod w 16 4, toNat_extractLsb'_eq_div_mod w 12 4, toInt_off_fieldsOf w,
    BitVec.le_toInt _, by omega⟩

/-! ### The opcode of a word -/

theorem opcodeNumber_eq_div (w : Word) : opcodeNumber w = w.toNat / 2 ^ 28 := by
  have hlt := w.isLt
  rw [opcodeNumber, toNat_extractLsb'_eq_div_mod]
  omega

/-- The opcode field of an operation (R62), the least one for INVALID. -/
def opcodeBits : Opcode → BitVec 4
  | .halt => 0
  | .load => 1
  | .store => 2
  | .add => 3
  | .sub => 4
  | .mul => 5
  | .div => 6
  | .invalid => 7

theorem decode_op_eq_iff (w : Word) {op : Opcode} (hop : op ≠ .invalid) :
    (decode w).op = op ↔ opcodeNumber w = (opcodeBits op).toNat := by
  unfold decode
  cases op with
  | invalid => exact absurd rfl hop
  | _ => split <;> simp_all [Instr.op, opcodeBits]

theorem decode_op_invalid_iff (w : Word) : (decode w).op = .invalid ↔ 7 ≤ opcodeNumber w := by
  unfold decode
  split <;> simp_all [Instr.op]
  omega

/-- The opcode mask of R72 keeps bits 31:28 and clears the rest. -/
theorem and_opcodeMask (w : Word) : w &&& 0xF0000000#32 = w.extractLsb' 28 4 ++ 0#28 := by
  have hsplit : w.extractLsb' 28 4 ++ w.extractLsb' 0 28 = w :=
    (BitVec.extractLsb'_append_extractLsb'_eq_extractLsb' (start₁ := 0) rfl).trans
      BitVec.extractLsb'_eq_self
  calc w &&& 0xF0000000#32
      = (w.extractLsb' 28 4 ++ w.extractLsb' 0 28) &&& (BitVec.allOnes 4 ++ 0#28) := by
        rw [hsplit]; rfl
    _ = w.extractLsb' 28 4 ++ 0#28 := by
        rw [BitVec.and_append, BitVec.and_allOnes, BitVec.and_zero]

/-- A match value of R72 fixes the opcode number. -/
theorem and_opcodeMask_eq_iff (w : Word) (n : BitVec 4) :
    w &&& 0xF0000000#32 = n ++ 0#28 ↔ opcodeNumber w = n.toNat := by
  rw [and_opcodeMask, BitVec.append_left_inj, opcodeNumber, BitVec.toNat_inj]

/-- The row of a defined operation in the table of R72. -/
theorem match_iff_decode_op (w : Word) (op : Opcode) (hop : op ≠ .invalid) :
    w &&& 0xF0000000#32 = opcodeBits op ++ 0#28 ↔ (decode w).op = op := by
  rw [and_opcodeMask_eq_iff, decode_op_eq_iff w hop]

theorem getLsbD_31_iff (w : Word) : w.getLsbD 31 = true ↔ 8 ≤ opcodeNumber w := by
  have hmsb : w.getLsbD 31 = w.msb := (BitVec.msb_eq_getLsbD_last w).symm
  rw [hmsb, BitVec.msb_eq_decide, decide_eq_true_iff, opcodeNumber_eq_div]
  omega

/-- The sign mask of R72 tells the opcode numbers 8 to 15. -/
theorem and_signMask_eq_iff (w : Word) :
    w &&& 0x80000000#32 = 0x80000000#32 ↔ 8 ≤ opcodeNumber w := by
  have hmask : 0x80000000#32 = BitVec.twoPow 32 31 := by decide
  rw [← getLsbD_31_iff, hmask, BitVec.and_twoPow]
  cases w.getLsbD 31 <;> decide

/-- Settles O14: each match value fixes the opcode number, and so the operation. -/
theorem opcodeMapIsTheTables : Obligations.OpcodeMapIsTheTables := by
  intro w
  refine ⟨match_iff_decode_op w .halt nofun, match_iff_decode_op w .load nofun,
    match_iff_decode_op w .store nofun, match_iff_decode_op w .add nofun,
    match_iff_decode_op w .sub nofun, match_iff_decode_op w .mul nofun,
    match_iff_decode_op w .div nofun, ?_⟩
  have hseven : w &&& 0xF0000000#32 = 0x70000000#32 ↔ opcodeNumber w = 7 := and_opcodeMask_eq_iff w 7
  rw [hseven, and_signMask_eq_iff, decode_op_invalid_iff]
  omega

/-- R71: the negative words are those with bit 31 set. -/
theorem toInt_neg_iff_getLsbD_31 (w : Word) : w.toInt < 0 ↔ w.getLsbD 31 = true := by
  rw [BitVec.toInt_neg_iff, getLsbD_31_iff, opcodeNumber_eq_div]
  omega

/-! ### A skip, and the zero word -/

theorem flagOnly_refl (s : State) : FlagOnly s.cond false s s :=
  ⟨rfl, rfl, rfl, (Bool.or_false _).symm, rfl, rfl, rfl⟩

theorem skip_onlyAdvanced (s : State) : OnlyAdvanced s.cond false s (skip s) :=
  onlyAdvanced_of_flagOnly (flagOnly_refl s)

theorem skip_memory (s : State) : MemoryUnchanged s (skip s) := memoryUnchanged_of_eq rfl rfl

theorem passes_never (c : Flag) : passes c Mask.never = false := by cases c <;> rfl

theorem passes_always (c : Flag) : passes c Mask.always = true := by cases c <;> rfl

/-- A fetched zero word is skipped. -/
theorem step_zero {s : State} (hrun : s.halted = false) (hstorage : isStorage (pcOf s) s = true)
    (hzero : readWord (pcOf s) s = 0) : step s = .next (skip (afterTrace hardware s)) := by
  rw [step_storage hrun hstorage, hzero]
  exact exec_skip (passes_never s.cond)

/-- Settles O17: bit 31 is the sign of a word and the highest bit of its opcode, and a fetched zero word is
skipped. -/
theorem negativeWordsAreInvalidAndZeroIsANoOp :
    Obligations.NegativeWordsAreInvalidAndZeroIsANoOp := by
  refine ⟨fun w => ⟨toInt_neg_iff_getLsbD_31 w, fun hneg => ?_⟩, by decide,
    fun s hrun hstorage hzero => ?_⟩
  · have hopcode := (getLsbD_31_iff w).mp ((toInt_neg_iff_getLsbD_31 w).mp hneg)
    exact ⟨opcodeNumber_eq_div w ▸ hopcode, (decode_op_invalid_iff w).mpr (by omega)⟩
  · obtain ⟨hpc, hcond, -, -, hregs, -⟩ := skip_onlyAdvanced (afterTrace hardware s)
    exact ⟨_, step_zero hrun hstorage hzero, hpc, hrun, hcond, hregs, afterTrace_memory hstorage⟩

/-! ### ADD and SUB -/

section AddSub

variable {f : Fields} {s : State}

theorem compute_add (f : Fields) (s : State) :
    compute hardware .add f s =
      (wrap (leftOf f s + rightOf f s), flagOf (wrap (leftOf f s + rightOf f s))) := by
  have hsum : wrap ((readReg f.s1 s).toInt + (wrap (rightOf f s)).toInt) =
      wrap (leftOf f s + rightOf f s) := by
    rw [leftOf, wrap_add, wrap_add, wrap_toInt, wrap_toInt]
  rw [compute_hardware, alu, settle_wrap]
  exact congrArg (fun v => (v, flagOf v)) hsum

theorem compute_sub (f : Fields) (s : State) :
    compute hardware .sub f s =
      (wrap (leftOf f s - rightOf f s), flagOf (wrap (leftOf f s - rightOf f s))) := by
  have hdifference : wrap ((readReg f.s1 s).toInt - (wrap (rightOf f s)).toInt) =
      wrap (leftOf f s - rightOf f s) := by
    rw [leftOf, wrap_sub, wrap_sub, wrap_toInt, wrap_toInt]
  rw [compute_hardware, alu, settle_wrap]
  exact congrArg (fun v => (v, flagOf v)) hdifference

/-- An arithmetic instruction whose ALU call gives a value with its own flag writes that value. -/
theorem arithResult_targetWritten {op : Opcode} {v : Word}
    (h : compute hardware op f s = (v, flagOf v)) :
    TargetWritten f v (flagOf v) false s (arithResult op f s) := by
  rw [arithResult, h]
  exact targetWritten_of_flagOnly (flagOnly_recordFlag_flagOf v s) f v

/-- An executed ADD writes `v`, its wrapped sum (R113). -/
theorem exec_add_writes (hpass : passes s.cond f.mask = true) {v : Word}
    (hv : wrap (leftOf f s + rightOf f s) = v) :
    ∃ t, exec (.add f) s = .next t ∧ TargetWritten f v (flagOf v) false s t ∧
      MemoryUnchanged s t ∧ t.bus = s.bus :=
  ⟨arithResult .add f s, exec_pass hpass, arithResult_targetWritten (hv ▸ compute_add f s),
    arithResult_memory .add f s, arithResult_bus .add f s⟩

/-- An executed SUB writes `v`, its wrapped difference (R114). -/
theorem exec_sub_writes (hpass : passes s.cond f.mask = true) {v : Word}
    (hv : wrap (leftOf f s - rightOf f s) = v) :
    ∃ t, exec (.sub f) s = .next t ∧ TargetWritten f v (flagOf v) false s t ∧
      MemoryUnchanged s t ∧ t.bus = s.bus :=
  ⟨arithResult .sub f s, exec_pass hpass, arithResult_targetWritten (hv ▸ compute_sub f s),
    arithResult_memory .sub f s, arithResult_bus .sub f s⟩

/-- With both sources r0 the wrapped sum is the offset: an immediate or an absolute address (R76). -/
theorem wrap_address (h1 : f.s1 = 0) (h2 : f.s2 = 0) :
    wrap (leftOf f s + rightOf f s) = wrap f.off.toInt := by
  simp [leftOf, rightOf, h1, h2]

/-- With neither second source nor offset the wrapped sum is the first source. -/
theorem wrap_left_add (h2 : f.s2 = 0) (hoff : f.off = 0) :
    wrap (leftOf f s + rightOf f s) = readReg f.s1 s := by
  simp [leftOf, rightOf, h2, hoff]

/-- With r0 and r15 for sources the wrapped sum is what lies the offset from the fetch address (R76). -/
theorem wrap_relative_address (h1 : f.s1 = 0) (h2 : f.s2 = pcReg) {target : Word}
    (hoff : f.off.toInt = target.toInt - (readReg pcReg s).toInt) :
    wrap (leftOf f s + rightOf f s) = target := by
  have hsum : leftOf f s + rightOf f s = target.toInt := by simp [leftOf, rightOf, h1, h2, hoff]
  rw [hsum, wrap_toInt]

theorem left_sub_register (hoff : f.off = 0) :
    leftOf f s - rightOf f s = (readReg f.s1 s).toInt - (readReg f.s2 s).toInt := by
  simp [leftOf, rightOf, hoff]

theorem left_sub_offset (h2 : f.s2 = 0) :
    leftOf f s - rightOf f s = (readReg f.s1 s).toInt - f.off.toInt := by
  simp [leftOf, rightOf, h2]

/-- A write of r0 is the advance alone (R21). -/
theorem onlyAdvanced_of_targetWritten {v : Word} {fl : Flag} {halts : Bool} {t : State}
    (hzero : f.t = 0) (h : TargetWritten f v fl halts s t) : OnlyAdvanced fl halts s t := by
  obtain ⟨-, hpc, hcond, hhalted, -, hwritten, hregs, hrest⟩ := h
  have hne : f.t ≠ 15 := by simp [hzero]
  refine ⟨hpc.trans (if_neg hne), hcond, hhalted, hwritten, fun r hr => ?_, hrest⟩
  by_cases hr0 : r = 0
  · simp [hr0]
  · exact hregs r (by simpa [hzero, hr0] using hr)

/-- An ADD into r15 jumps to its value and sets the flag of the target (R122). -/
theorem exec_add_jumps (hpass : passes s.cond f.mask = true) (hpc : f.t = 15) {v : Word}
    (hv : wrap (leftOf f s + rightOf f s) = v) :
    ∃ t, exec (.add f) s = .next t ∧ readReg 15 t = v ∧ t.cond = flagOf v := by
  obtain ⟨t, hexec, ⟨-, hpc', hcond, -⟩, -⟩ := exec_add_writes hpass hv
  exact ⟨t, hexec, hpc'.trans (if_pos hpc), hcond⟩

/-- A SUB into r0 compares: it sets the flag of the difference and advances (R76). -/
theorem exec_sub_compares (hpass : passes s.cond f.mask = true) (hzero : f.t = 0) {v : Word}
    (hv : wrap (leftOf f s - rightOf f s) = v) :
    ∃ t, exec (.sub f) s = .next t ∧ OnlyAdvanced (flagOf v) false s t ∧
      MemoryUnchanged s t ∧ t.bus = s.bus := by
  obtain ⟨t, hexec, htarget, hframe⟩ := exec_sub_writes hpass hv
  exact ⟨t, hexec, onlyAdvanced_of_targetWritten hzero htarget, hframe⟩

end AddSub

/-! ### LOAD and STORE at storage -/

section Storage

variable {f : Fields} {s : State} {x : Word}

theorem exec_load_storage (hpass : passes s.cond f.mask = true) (hx : ea f s = x)
    (h : isStorage x s = true) :
    ∃ t, exec (.load f) s = .next t ∧ TargetWritten f (readWord x s) (flagOf x) false s t ∧
      MemoryUnchanged s t := by
  subst hx
  rw [← wordRead_storage hardware h]
  exact ⟨loadResult f s, exec_load_admitted hpass (isStorage_admitted h), loadResult_targetWritten f s,
    loadResult_memory h⟩

theorem exec_store_storage (hpass : passes s.cond f.mask = true) (hx : ea f s = x)
    (h : isStorage x s = true) :
    ∃ t, exec (.store f) s = .next t ∧ OnlyAdvanced (flagOf x) false s t ∧
      OnlyStored x (readReg f.t s) s t := by
  subst hx
  exact ⟨storeResult f s, exec_store_admitted hpass (isStorage_admitted h), storeResult_onlyAdvanced f s,
    storeResult_memory h⟩

end Storage

/-! ### The jumps -/

theorem toInt_of_offsetOf_eq_some {e : Int} {off : Offset} (h : offsetOf e = some off) : off.toInt = e := by
  unfold offsetOf at h
  split at h
  · obtain rfl := Option.some.inj h
    exact BitVec.toInt_ofInt_eq_self (by decide) (by omega) (by omega)
  · exact absurd h nofun

theorem offsetOf_isSome_iff (e : Int) : (offsetOf e).isSome = true ↔ -2048 ≤ e ∧ e ≤ 2047 := by
  unfold offsetOf
  split <;> simp_all

/-- The expansion of a JUMP is an ADD of the program counter and the distance to the label. -/
theorem expandPseudo_jump {a target : Word} {mask : Mask} {i : Instr}
    (h : expandPseudo a (.jump mask target) = some i) :
    ∃ off : Offset, off.toInt = target.toInt - a.toInt ∧
      i = .add { mask := mask, t := pcReg, s1 := 0, s2 := pcReg, off := off } := by
  obtain ⟨off, hoff, rfl⟩ := Option.map_eq_some_iff.mp h
  exact ⟨off, toInt_of_offsetOf_eq_some hoff, rfl⟩

/-- Settles O34: every jump is an ADD into r15, and its value is the target. -/
theorem jumpsReachTheirTargets : Obligations.JumpsReachTheirTargets := by
  intro s mask hpass
  refine ⟨fun target i h => ?_, fun target => ?_, fun addr i h => ?_, fun r i h => ?_⟩
  · obtain ⟨off, hoff, rfl⟩ := expandPseudo_jump h
    exact exec_add_jumps hpass rfl (wrap_relative_address rfl rfl hoff)
  · rw [expandPseudo, Option.isSome_map, offsetOf_isSome_iff]
  · obtain rfl := Option.some.inj h
    exact exec_add_jumps hpass rfl (wrap_address rfl rfl)
  · obtain rfl := Option.some.inj h
    exact exec_add_jumps hpass rfl (wrap_left_add rfl rfl)

/-! ### The other pseudo-instructions -/

/-- A pseudo-instruction does what the one instruction of its expansion does. -/
theorem expansion_runs {a : Word} {p : Pseudo} {i : Instr} {s : State} {P : State → Prop}
    (hexpand : expandPseudo a p = some i) (h : ∃ t, exec i s = .next t ∧ P t) :
    ∃ i t, expandPseudo a p = some i ∧ exec i s = .next t ∧ P t := by
  obtain ⟨t, ht⟩ := h
  exact ⟨i, t, hexpand, ht⟩

/-- Settles O35: NOP is a skip, LI and MOVE are ADDs, CMP and CMPI are SUBs into r0, and LOADA and STOREA have
their address in the offset. -/
theorem pseudoInstructionsHaveTheirNotedEffect :
    Obligations.PseudoInstructionsHaveTheirNotedEffect := by
  intro s a
  have hpass := passes_always s.cond
  refine ⟨⟨_, skip s, rfl, by decide, exec_skip (passes_never s.cond), skip_onlyAdvanced s,
      skip_memory s, rfl⟩,
    fun r imm => ?_, fun r q => ?_, fun p q => ?_, fun p imm => ?_, fun r addr h => ?_,
    fun r addr h => ?_⟩
  · exact expansion_runs rfl (exec_add_writes hpass (wrap_address rfl rfl))
  · exact expansion_runs rfl (exec_add_writes hpass (wrap_left_add rfl rfl))
  · exact expansion_runs rfl (exec_sub_compares hpass rfl (congrArg wrap (left_sub_register rfl)))
  · exact expansion_runs rfl (exec_sub_compares hpass rfl (congrArg wrap (left_sub_offset rfl)))
  · exact expansion_runs rfl (exec_load_storage hpass (wrap_address rfl rfl) h)
  · exact expansion_runs rfl (exec_store_storage hpass (wrap_address rfl rfl) h)

end Sys2Proof.Proofs
end

section
/-! PROOF. The statements about the arithmetic unit (spec/40_alu.md): the ALU as the exact value brought back to
a word, floor division in the word range, the ALU call under both overflow policies, and the theorems that
settle the statements. -/

namespace Sys2Proof.Proofs

open Sys2Proof.Machine Sys2Proof.Claims

/-! ### Bringing a value back to a word (R82, R84) -/

theorem inWordRange_iff_fits (e : Int) : inWordRange e = true ↔ Fits e :=
  decide_eq_true_iff

theorem toInt_fits (w : Word) : Fits w.toInt :=
  ⟨BitVec.le_toInt w, Int.le_of_lt_add_one BitVec.toInt_lt⟩

theorem settle_fits (p : OverflowPolicy) {e : Int} (h : Fits e) :
    settle p e = (wrap e, flagOf (wrap e)) := by
  simp [settle, (inWordRange_iff_fits e).mpr h]

theorem settle_fault_not_fits {e : Int} (h : ¬ Fits e) : settle .fault e = (0, .v) := by
  have hout : inWordRange e = false := by
    rwa [← Bool.not_eq_true, inWordRange_iff_fits]
  simp [settle, hout, faultResult]

theorem settle_flag {p : OverflowPolicy} {e : Int} (h : (settle p e).2 ≠ .v) :
    (settle p e).2 = flagOf (settle p e).1 := by
  unfold settle at h ⊢
  split
  · simp_all [faultResult]
  · rfl

/-- The three flags of a word, by the sign of its value. -/
theorem flagOf_iff_sign (v : Word) :
    (flagOf v = .z ↔ v.toInt = 0) ∧ (flagOf v = .m ↔ v.toInt < 0) ∧ (flagOf v = .p ↔ 0 < v.toInt) := by
  have hzero : v = 0 ↔ v.toInt = 0 := BitVec.toInt_inj.symm
  simp only [flagOf, hzero]
  split
  · simp_all
  · split <;> simp <;> omega

/-! ### The ALU's answer from the exact value (R80, R81, R91) -/

theorem exactValue_div (l : Word) {r : Word} (hr : r ≠ 0) :
    exactValue .div l r = some (Int.fdiv l.toInt r.toInt) := if_neg hr

/-- An operation with an exact value answers that value brought back to a word. -/
theorem alu_exactValue (p : OverflowPolicy) {op : Opcode} {l r : Word} {e : Int}
    (h : exactValue op l r = some e) : alu p op l r = settle p e := by
  cases op with
  | halt =>
    obtain rfl := Option.some.inj h
    exact (settle_fits p (e := 0) (by decide)).symm
  | invalid => exact absurd h nofun
  | div =>
    by_cases hr : r = 0
    · simp [exactValue, hr] at h
    · rw [exactValue_div l hr] at h
      obtain rfl := Option.some.inj h
      exact if_neg hr
  | load | store | add | sub | mul =>
    obtain rfl := Option.some.inj h
    rfl

/-- An operation without an exact value, a DIV by 0 or INVALID, answers the fault result. -/
theorem alu_no_exactValue (p : OverflowPolicy) {op : Opcode} {l r : Word}
    (h : exactValue op l r = none) : alu p op l r = faultResult := by
  cases op with
  | invalid => rfl
  | div =>
    by_cases hr : r = 0
    · simp [alu, hr]
    · exact absurd ((exactValue_div l hr).symm.trans h) nofun
  | halt | load | store | add | sub | mul => exact absurd h nofun

theorem alu_wrap_exactValue {op : Opcode} {l r : Word} {e : Int} (h : exactValue op l r = some e) :
    alu .wrap op l r = (wrap e, flagOf (wrap e)) :=
  (alu_exactValue .wrap h).trans (settle_wrap e)

/-- Settles O3: an answer is a fault result, whose flag is V, or an exact value brought back to a word. -/
theorem flagComesFromTheWordResult : Obligations.FlagComesFromTheWordResult := by
  refine ⟨flagOf_iff_sign, fun p op l r hflag => ?_⟩
  cases he : exactValue op l r with
  | none => exact absurd (congrArg Prod.snd (alu_no_exactValue p he)) hflag
  | some e =>
    rw [alu_exactValue p he] at hflag ⊢
    exact settle_flag hflag

/-- Settles O5. -/
theorem overflowPoliciesBringTheValueBack : Obligations.OverflowPoliciesBringTheValueBack := by
  refine fun op l r e he => ⟨alu_wrap_exactValue he, fun hout => ?_, fun hin => ⟨?_, ?_⟩⟩
  · exact (alu_exactValue .fault he).trans (settle_fault_not_fits hout)
  · exact (alu_exactValue .fault he).trans (settle_fits .fault hin)
  · exact toInt_wrap_of_range ((inWordRange_iff_fits e).mpr hin)

/-- Settles O4. -/
theorem divideByZeroReturnsFault : Obligations.DivideByZeroReturnsFault :=
  fun p _ => alu_no_exactValue p rfl

/-- Settles O9. -/
theorem haltAndInvalidIgnoreTheOperands : Obligations.HaltAndInvalidIgnoreTheOperands :=
  fun _ _ _ => ⟨rfl, rfl⟩

/-! ### ADD, SUB and MUL on the bits of their operands (R85, R86) -/

theorem alu_wrap_add (l r : Word) : alu .wrap .add l r = (l + r, flagOf (l + r)) := by
  rw [alu_wrap_exactValue rfl, wrap_add, wrap_toInt, wrap_toInt]

theorem alu_wrap_sub (l r : Word) : alu .wrap .sub l r = (l - r, flagOf (l - r)) := by
  rw [alu_wrap_exactValue rfl, wrap_sub, wrap_toInt, wrap_toInt]

theorem wrap_toInt_mul_toInt (l r : Word) : wrap (l.toInt * r.toInt) = l * r := by
  rw [wrap_mul, wrap_toInt, wrap_toInt]

/-- Settles O6: the wrapped sum and difference are those of the bit patterns. -/
theorem addAndSubAreModular : Obligations.AddAndSubAreModular := by
  refine ⟨fun l r => ⟨alu_wrap_add l r, alu_wrap_sub l r, ?_, ?_, ?_, ?_⟩,
    by decide, by decide, by decide, by decide⟩
  · rw [alu_wrap_add, BitVec.toNat_add]
  · rw [alu_wrap_sub, BitVec.toNat_sub, Nat.add_comm]
  · exact alu_wrap_add l r ▸ flagOf_ne_v (l + r)
  · exact alu_wrap_sub l r ▸ flagOf_ne_v (l - r)

/-- Settles O7: the wrapped product is that of the bit patterns. -/
theorem mulReturnsTheLow32Bits : Obligations.MulReturnsTheLow32Bits := by
  refine ⟨fun l r => ⟨alu_wrap_exactValue rfl, ?_⟩, by decide, by decide, by decide, by decide⟩
  rw [alu_wrap_exactValue rfl, wrap_toInt_mul_toInt, BitVec.toNat_mul]

/-! ### Floor division (R87) -/

/-- A quotient by a positive divisor leaves the word range only as `2^31 / 1`. -/
theorem not_fits_ediv_iff {a b : Int} (hlow : -2147483648 ≤ a) (hhigh : a ≤ 2147483648) (hb : 0 < b) :
    ¬ Fits (a / b) ↔ a = 2147483648 ∧ b = 1 := by
  have hge : -2147483648 ≤ a / b := (Int.le_ediv_iff_mul_le hb).mpr (by omega)
  have hlt : a / b < 2147483648 ↔ a < 2147483648 * b := Int.ediv_lt_iff_lt_mul hb
  constructor
  · intro hout
    have hnlt : ¬ a / b < 2147483648 := fun h => hout ⟨hge, Int.le_of_lt_add_one h⟩
    rw [hlt] at hnlt
    omega
  · rintro ⟨rfl, rfl⟩
    decide

/-- The floor quotient of two words leaves the word range only as `-2^31 / -1`: a negative divisor is the
positive one with both signs changed. -/
theorem not_fits_fdiv_iff {a b : Int} (ha : Fits a) (hb : b ≠ 0) :
    ¬ Fits (Int.fdiv a b) ↔ a = -2147483648 ∧ b = -1 := by
  obtain ⟨hlow, hhigh⟩ := ha
  rcases Int.lt_or_gt_of_ne hb with hneg | hpos
  · rw [← Int.neg_fdiv_neg, Int.fdiv_eq_ediv_of_nonneg _ (by omega),
      not_fits_ediv_iff (by omega) (by omega) (by omega)]
    omega
  · rw [Int.fdiv_eq_ediv_of_nonneg _ (by omega), not_fits_ediv_iff hlow (by omega) hpos]
    omega

/-- The remainder of floor division by a negative divisor lies above it, up to 0. -/
theorem fmod_of_neg (a : Int) {b : Int} (hb : b < 0) : b < Int.fmod a b ∧ Int.fmod a b ≤ 0 := by
  have hpos : 0 < -b := by omega
  have hnonneg := Int.fmod_nonneg_of_pos (-a) hpos
  have hlt := Int.fmod_lt_of_pos (-a) hpos
  rw [Int.neg_fmod_neg] at hnonneg hlt
  omega

theorem toInt_ne_zero {w : Word} (h : w ≠ 0) : w.toInt ≠ 0 := fun hzero => h (BitVec.toInt_inj.mp hzero)

/-- The quotient law: DIV's answer is the floor quotient itself, and the remainder is that of floor division. -/
theorem alu_wrap_div_law {l r : Word} (hr : r ≠ 0) (hpair : ¬ (l.toInt = -2147483648 ∧ r.toInt = -1)) :
    l.toInt = (alu .wrap .div l r).1.toInt * r.toInt + Int.fmod l.toInt r.toInt := by
  have hfits : Fits (Int.fdiv l.toInt r.toInt) :=
    not_not.mp fun hout => hpair ((not_fits_fdiv_iff (toInt_fits l) (toInt_ne_zero hr)).mp hout)
  rw [alu_wrap_exactValue (exactValue_div l hr),
    toInt_wrap_of_range ((inWordRange_iff_fits _).mpr hfits), Int.mul_comm, Int.mul_fdiv_add_fmod]

/-- Settles O8. -/
theorem divRoundsTowardMinusInfinity : Obligations.DivRoundsTowardMinusInfinity := by
  refine ⟨fun l r hr hpair => ⟨Int.fmod l.toInt r.toInt, alu_wrap_div_law hr hpair,
      fun hpos => ⟨Int.fmod_nonneg_of_pos _ hpos, Int.fmod_lt_of_pos _ hpos⟩, fmod_of_neg _, ?_⟩,
    fun l r hr => not_fits_fdiv_iff (toInt_fits l) (toInt_ne_zero hr),
    by decide, by decide, by decide, by decide, by decide, by decide, by decide, by decide, by decide,
    divideByZeroReturnsFault .wrap, by decide, by decide⟩
  rw [alu_wrap_exactValue (exactValue_div l hr)]

/-! ### The ALU call where no value leaves the word range (decision D2) -/

/-- The overflow policy matters to an exact value out of the word range only. -/
theorem alu_policy_irrelevant (p q : OverflowPolicy) {op : Opcode} {l r : Word}
    (h : ∀ e, exactValue op l r = some e → Fits e) : alu p op l r = alu q op l r := by
  cases he : exactValue op l r with
  | none => rw [alu_no_exactValue p he, alu_no_exactValue q he]
  | some e => rw [alu_exactValue p he, alu_exactValue q he, settle_fits p (h e he), settle_fits q (h e he)]

/-- `noOverflow` says what it is named for: the right operand and the ALU's exact value are in range. -/
theorem noOverflow_fits {op : Opcode} {l b : Word} {off : Offset} (h : noOverflow op l b off = true) :
    inWordRange (b.toInt + off.toInt) = true ∧
      ∀ e, exactValue op l (wrap (b.toInt + off.toInt)) = some e → Fits e := by
  obtain ⟨hright, hresult⟩ := Bool.and_eq_true_iff.mp h
  refine ⟨hright, fun e he => (inWordRange_iff_fits e).mp ?_⟩
  have hexact := toInt_wrap_of_range hright
  cases op with
  | halt =>
    obtain rfl := Option.some.inj he
    rfl
  | invalid => exact absurd he nofun
  | div =>
    by_cases hzero : wrap (b.toInt + off.toInt) = 0
    · simp [exactValue, hzero] at he
    · rw [exactValue_div l hzero, hexact] at he
      exact Option.some.inj he ▸ hresult
  | load | store | add | sub | mul =>
    rw [exactValue, hexact] at he
    exact Option.some.inj he ▸ hresult

theorem compute_faulting {op : Opcode} {f : Fields} {s : State}
    (h : noOverflow op (readReg f.s1 s) (readReg f.s2 s) f.off = true) :
    compute faulting op f s = compute hardware op f s := by
  obtain ⟨hright, hfits⟩ := noOverflow_fits h
  rw [compute_hardware, ← alu_policy_irrelevant .fault .wrap hfits]
  simp [compute, faulting, formRight, hright]

/-! The overflow policy reaches an instruction's meaning through its ALU call alone: the devices and the order
of the advance are the hardware's. -/

section SameCompute

variable {f : Fields} {s : State}

theorem arith_faulting {op : Opcode} (h : compute faulting op f s = compute hardware op f s) :
    arith faulting op f s = arith hardware op f s := by
  unfold arith
  rw [h]
  rfl

theorem haltOp_faulting (h : compute faulting .halt f s = compute hardware .halt f s) :
    haltOp faulting f s = haltOp hardware f s := by
  unfold haltOp
  rw [h]
  rfl

theorem invalidOp_faulting (h : compute faulting .invalid f s = compute hardware .invalid f s) :
    invalidOp faulting f s = invalidOp hardware f s := by
  unfold invalidOp
  rw [h]
  rfl

theorem loadOp_faulting (h : compute faulting .load f s = compute hardware .load f s) :
    loadOp faulting f s = loadOp hardware f s := by
  unfold loadOp
  rw [h]
  rfl

theorem storeOp_faulting (h : compute faulting .store f s = compute hardware .store f s) :
    storeOp faulting f s = storeOp hardware f s := by
  unfold storeOp
  rw [h]
  rfl

end SameCompute

theorem execUnder_faulting {i : Instr} {s : State}
    (h : compute faulting i.op i.fields s = compute hardware i.op i.fields s) :
    execUnder faulting i s = execUnder hardware i s := by
  cases i with
  | halt => exact haltOp_faulting h
  | load => exact loadOp_faulting h
  | store => exact storeOp_faulting h
  | add | sub | mul | div => exact arith_faulting h
  | invalid7 | invalidHigh => exact invalidOp_faulting h

/-- Settles O33. -/
theorem overflowPolicyMattersOnlyOutOfRange : Obligations.OverflowPolicyMattersOnlyOutOfRange :=
  fun i s h => (execUnder_faulting (compute_faulting h)).trans (execUnder_hardware i s)

end Sys2Proof.Proofs
end

section
/-! PROOF. The statements about a step (spec/41_step.md): the condition test and the skip, what an executed
instruction leaves in r15 and in the output streams, HALT, HALTED and runs, the host, the observers, the orders
of the advance, and the theorems that settle the statements. -/

namespace Sys2Proof.Proofs

open Sys2Proof.Machine Sys2Proof.Claims

/-! ### The condition test and the skip (R97, R98) -/

/-- Settles O18. -/
theorem conditionTestIsTheMasksBit : Obligations.ConditionTestIsTheMasksBit :=
  ⟨fun _ _ => bne_iff_ne, by decide, fun c => ⟨passes_always c, passes_never c⟩⟩

/-- Settles O19: the test stands before every instruction's effect, whatever the parameters. -/
theorem skippedInstructionOnlyAdvancesThePc : Obligations.SkippedInstructionOnlyAdvancesThePc :=
  fun _ s h => ⟨skip s, exec_skip h, skip_onlyAdvanced s, skip_memory s, rfl, fun _ => execUnder_skip h⟩

/-! ### An executed instruction writes its target or only advances (R103, R104) -/

/-- An arithmetic instruction writes the ALU's word, 0 after a fault too. -/
theorem arithResult_targetWritten_aluOf (i : Instr) (s : State) :
    TargetWritten i.fields (aluOf i s).1 (aluOf i s).2 ((aluOf i s).2 == .v) s
      (arithResult i.op i.fields s) := by
  rw [arithResult, compute_eq_aluOf]
  exact targetWritten_of_flagOnly (flagOnly_recordFlag (aluOf i s).2 s) i.fields _

theorem flagOnly_enterHalted {fl : Flag} {halts : Bool} {s m : State} (h : FlagOnly fl halts s m) :
    FlagOnly fl true s (enterHalted m) := by
  obtain ⟨hregs, hwritten, hcond, -, hrest⟩ := h
  exact ⟨hregs, hwritten, hcond, (Bool.or_true _).symm, hrest⟩

theorem haltResult_onlyAdvanced (f : Fields) (s : State) : OnlyAdvanced .z true s (haltResult f s) := by
  rw [haltResult, compute_halt]
  exact onlyAdvanced_of_flagOnly (flagOnly_enterHalted (flagOnly_recordFlag .z s))

theorem invalidResult_onlyAdvanced (f : Fields) (s : State) :
    OnlyAdvanced .v true s (invalidResult f s) := by
  rw [invalidResult, compute_invalid]
  exact onlyAdvanced_of_flagOnly (flagOnly_recordFlag .v s)

theorem resultOf_writes (i : Instr) (s : State) :
    (∃ v fl halts, targetValue i s = some v ∧ TargetWritten i.fields v fl halts s (resultOf i s)) ∨
    (∃ fl halts, targetValue i s = none ∧ OnlyAdvanced fl halts s (resultOf i s)) := by
  cases i with
  | halt f => exact .inr ⟨_, _, rfl, haltResult_onlyAdvanced f s⟩
  | load f => exact .inl ⟨_, _, _, rfl, loadResult_targetWritten f s⟩
  | store f => exact .inr ⟨_, _, rfl, storeResult_onlyAdvanced f s⟩
  | add f => exact .inl ⟨_, _, _, rfl, arithResult_targetWritten_aluOf (.add f) s⟩
  | sub f => exact .inl ⟨_, _, _, rfl, arithResult_targetWritten_aluOf (.sub f) s⟩
  | mul f => exact .inl ⟨_, _, _, rfl, arithResult_targetWritten_aluOf (.mul f) s⟩
  | div f => exact .inl ⟨_, _, _, rfl, arithResult_targetWritten_aluOf (.div f) s⟩
  | invalid7 f => exact .inr ⟨_, _, rfl, invalidResult_onlyAdvanced f s⟩
  | invalidHigh f => exact .inr ⟨_, _, rfl, invalidResult_onlyAdvanced f s⟩

/-- Under `write_wins` a word written to r15 is the next fetch address. -/
theorem resultOf_pc (i : Instr) (s : State) :
    readReg 15 (resultOf i s) =
      if i.fields.t = 15 then (targetValue i s).getD (wrap ((readReg 15 s).toInt + 1))
      else wrap ((readReg 15 s).toInt + 1) := by
  rcases resultOf_writes i s with ⟨v, _, _, hv, -, hpc, -⟩ | ⟨_, _, hnone, hpc, -⟩
  · rw [hpc, hv, Option.getD_some]
  · rw [hpc, hnone, Option.getD_none, ite_self]

theorem resultOf_rest (i : Instr) (s : State) : RestUnchanged s (resultOf i s) := by
  rcases resultOf_writes i s with ⟨_, _, _, -, htarget⟩ | ⟨_, _, -, hadvanced⟩
  · obtain ⟨-, -, -, -, -, -, -, hrest⟩ := htarget
    exact hrest
  · obtain ⟨-, -, -, -, -, hrest⟩ := hadvanced
    exact hrest

/-- Settles O31. -/
theorem nextPcIsTheWordWrittenOrTheNextAddress :
    Obligations.NextPcIsTheWordWrittenOrTheNextAddress := by
  intro i s t h
  rcases exec_next.mp h with ⟨hskip, rfl⟩ | ⟨hpass, -, rfl⟩
  · obtain ⟨hpc, -⟩ := skip_onlyAdvanced s
    rw [hpc, if_neg (by simp [hskip])]
  · simp only [resultOf_pc, hpass, true_and]

/-! ### The step of a running CORE and its trace event (R94 to R96) -/

/-- Settles O36: the fetch is one access, with the decoded instruction behind it. -/
theorem stepRunsTheDecodedInstruction : Obligations.StepRunsTheDecodedInstruction := by
  refine fun s hrun => ⟨fun hnone => ?_, fun i hadmitted hi => ?_⟩
  · exact (step_running hrun).trans (access_absent hnone)
  · have hfetched : fetched s = i := hi
    have hstep : step s = exec i (afterTrace hardware s) :=
      hfetched ▸ (step_running hrun).trans (access_admitted hadmitted)
    refine ⟨hstep, rfl, rfl, rfl, rfl, rfl, rfl, rfl, fun hstorage =>
      ⟨wordRead_storage hardware hstorage, ?_⟩⟩
    rw [afterTrace_mem, afterTrace_device, afterRead_storage hardware (a := pcOf s) hstorage]
    exact ⟨rfl, rfl⟩

/-- Settles O37: the event is emitted with the fetch, and neither a skip nor an executed instruction touches
the trace or the observers. -/
theorem everyStepEmitsOneTraceEvent : Obligations.EveryStepEmitsOneTraceEvent := by
  intro s t hrun hstep
  rcases step_next_running hrun hstep with ⟨-, rfl⟩ | ⟨-, rfl⟩
  · exact ⟨rfl, rfl⟩
  · obtain ⟨-, hobservers, htrace⟩ := resultOf_rest (fetched s) (afterTrace hardware s)
    exact ⟨htrace, hobservers⟩

/-! ### HALT (R102) -/

theorem opcodeField_eq_opcodeBits {i : Instr} (h : i.op ≠ .invalid) : opcodeField i = opcodeBits i.op := by
  cases i with
  | invalid7 | invalidHigh => exact absurd rfl h
  | _ => rfl

/-- An instruction with a defined operation is told by the operation and its fields: they are its word. -/
theorem eq_of_op_of_fields {i j : Instr} (h : j.op ≠ .invalid) (hop : i.op = j.op)
    (hfields : i.fields = j.fields) : i = j := by
  have hword : encode i = encode j := by
    rw [encode, encode, opcodeField_eq_opcodeBits h, opcodeField_eq_opcodeBits (hop ▸ h), hop, hfields]
  rw [← decode_encode i, hword, decode_encode]

/-- The words of a defined operation (R62). -/
theorem encodedWithOpcode_opcodeBits {op : Opcode} (hop : op ≠ .invalid) {mk : Fields → Instr}
    (hmk : ∀ f, (mk f).op = op ∧ (mk f).fields = f) :
    EncodedWithOpcode (opcodeBits op).toNat mk := by
  intro w
  obtain ⟨hmkOp, hmkFields⟩ := hmk (fieldsOf w)
  rw [← opcodeNumber_eq_div, ← decode_op_eq_iff w hop]
  constructor
  · intro h
    rw [h, hmkOp]
  · intro h
    exact eq_of_op_of_fields (hmkOp ▸ hop) (h.trans hmkOp.symm) ((decode_fields w).trans hmkFields.symm)

theorem exec_halt_pass {f : Fields} {s : State} (hpass : passes s.cond f.mask = true) :
    exec (.halt f) s = .next (haltResult f s) := exec_pass hpass

/-- HALT reads no operand: its result is the same for all fields. -/
theorem haltResult_congr (f g : Fields) (s : State) : haltResult f s = haltResult g s := by
  rw [haltResult, haltResult, compute_halt, compute_halt]

theorem exec_halt_congr {f g : Fields} (s : State) (h : f.mask = g.mask) :
    exec (.halt f) s = exec (.halt g) s := by
  cases hp : passes s.cond f.mask with
  | false => rw [exec_skip (i := .halt f) hp, exec_skip (i := .halt g) (h ▸ hp)]
  | true => rw [exec_halt_pass hp, exec_halt_pass (h ▸ hp), haltResult_congr f g]

/-- Settles O27. -/
theorem haltHaltsAndWritesNothingElse : Obligations.HaltHaltsAndWritesNothingElse := by
  refine ⟨encodedWithOpcode_opcodeBits (op := .halt) nofun fun f => ⟨rfl, rfl⟩, fun f s hpass => ?_,
    fun f g s h => exec_halt_congr s h, fun s hone => ?_⟩
  · exact ⟨haltResult f s, exec_halt_pass hpass, haltResult_onlyAdvanced f s, haltResult_memory f s,
      resultOf_bus (.halt f) s⟩
  · obtain ⟨hpc, hcond, hhalted, -⟩ := haltResult_onlyAdvanced (fieldsOf 0x0F000000) s
    refine ⟨_, exec_halt_pass (passes_always s.cond), ?_, hcond, ?_⟩
    · rw [hhalted, Bool.or_true]
    · rw [hpc, hone]
      rfl

/-! ### Reads precede writes (R99, R107) -/

/-- Settles O29. -/
theorem readsPrecedeWritesWithinAStep : Obligations.ReadsPrecedeWritesWithinAStep := by
  intro s
  have hpass := passes_always s.cond
  refine ⟨?_, fun hstorage => ?_, ?_, ?_⟩
  · obtain ⟨t, hexec, ⟨htarget, -⟩, -⟩ := exec_add_writes (f := fieldsOf 0x3F111000) hpass rfl
    refine ⟨t, hexec, htarget.trans (congrArg wrap ?_)⟩
    change (readReg 1 s).toInt + ((readReg 1 s).toInt + 0) = 2 * (readReg 1 s).toInt
    omega
  · obtain ⟨t, hexec, ⟨htarget, -⟩, -⟩ :=
      exec_load_storage (f := fieldsOf 0x1F220000) hpass (wrap_left_add rfl rfl) hstorage
    exact ⟨t, hexec, htarget⟩
  · obtain ⟨t, hexec, hpc, -⟩ := exec_add_jumps (f := fieldsOf 0x3FFF0001) hpass rfl rfl
    refine ⟨t, hexec, hpc.trans (congrArg wrap ?_)⟩
    change (readReg 15 s).toInt + (0 + 1) = (readReg 15 s).toInt + 1
    rw [Int.zero_add]
  · exact exec_add_jumps (f := fieldsOf 0x3FF0F000) hpass rfl
      (wrap_relative_address rfl rfl (Int.sub_self _).symm)

/-! ### HALTED (R108), and runs (R111) -/

theorem run_succ {s t : State} (k : Nat) (h : step s = .next t) :
    Sys2Proof.core.run (k + 1) s = Sys2Proof.core.run k t := by
  have hstep : Sys2Proof.core.step s = .next t := h
  simp only [Host.Core.run, hstep]

/-- Settles O43. -/
theorem haltedIsAbsorbing : Obligations.HaltedIsAbsorbing := by
  intro s h k
  induction k with
  | zero => rfl
  | succ k ih => rw [run_succ k (step_halted h), ih]

/-- The first `n` states of the machine's steps from `s` are not in HALTED. -/
def RunsThrough (n : Nat) (s : State) : Prop :=
  ∀ i, i < n → ∃ u, Sys2Proof.core.run i s = .next u ∧ u.halted = false

theorem runsThrough_succ {n : Nat} {s t : State} (hrun : s.halted = false) (hstep : step s = .next t)
    (h : RunsThrough n t) : RunsThrough (n + 1) s := by
  intro i hi
  cases i with
  | zero => exact ⟨s, rfl, hrun⟩
  | succ i => exact run_succ i hstep ▸ h i (Nat.lt_of_succ_lt_succ hi)

theorem runFor_halted {s : State} (k : Nat) (h : s.halted = true) : runFor k s = .ended s := by
  cases k <;> rw [runFor, if_pos h]

theorem runFor_zero_running {s : State} (h : s.halted = false) : runFor 0 s = .unfinished s := by
  rw [runFor, if_neg (by simp [h])]

/-- A run that neither faults nor is refused goes on after its first step. -/
theorem runFor_succ_running {k : Nat} {s : State} (hrun : s.halted = false)
    (hfault : ∀ r, runFor (k + 1) s ≠ .faulted r) (hrefused : ∀ r, runFor (k + 1) s ≠ .refused r) :
    ∃ t, step s = .next t ∧ ∀ j, runFor (j + 1) s = runFor j t := by
  cases hstep : step s with
  | next t => exact ⟨t, rfl, fun j => by simp [runFor, hrun, hstep]⟩
  | fault r => exact absurd (by simp [runFor, hrun, hstep]) (hfault r)
  | refused r => exact absurd (by simp [runFor, hrun, hstep]) (hrefused r)

/-- A run that neither faults nor is refused is at the first HALTED state the machine's steps reach, or at
the state all the fuel leads to, none of those on the way being in HALTED. -/
theorem runFor_end {k : Nat} {s : State} (hfault : ∀ r, runFor k s ≠ .faulted r)
    (hrefused : ∀ r, runFor k s ≠ .refused r) :
    ∃ j t, j ≤ k ∧ Sys2Proof.core.run j s = .next t ∧ RunsThrough j s ∧
      (t.halted = true ∧ runFor k s = .ended t ∨
        j = k ∧ t.halted = false ∧ runFor k s = .unfinished t) := by
  induction k generalizing s with
  | zero =>
    refine ⟨0, s, Nat.le_refl 0, rfl, nofun, ?_⟩
    cases hh : s.halted with
    | true => exact .inl ⟨rfl, runFor_halted 0 hh⟩
    | false => exact .inr ⟨rfl, rfl, runFor_zero_running hh⟩
  | succ k ih =>
    cases hh : s.halted with
    | true => exact ⟨0, s, Nat.zero_le _, rfl, nofun, .inl ⟨hh, runFor_halted (k + 1) hh⟩⟩
    | false =>
      obtain ⟨u, hstep, hrest⟩ := runFor_succ_running hh hfault hrefused
      rw [hrest k] at hfault hrefused ⊢
      obtain ⟨j, t, hj, hend, hthrough, hresult⟩ := ih hfault hrefused
      exact ⟨j + 1, t, Nat.succ_le_succ hj, (run_succ j hstep).trans hend,
        runsThrough_succ hh hstep hthrough,
        hresult.imp_right fun ⟨hjk, h⟩ => ⟨congrArg (· + 1) hjk, h⟩⟩

/-- More fuel gives the same end. -/
theorem runFor_ended_mono {k j : Nat} {s t : State} (hkj : k ≤ j) (h : runFor k s = .ended t) :
    runFor j s = .ended t := by
  induction k generalizing s j with
  | zero =>
    cases hh : s.halted with
    | true => rw [runFor_halted j hh, ← h, runFor_halted 0 hh]
    | false => exact absurd ((runFor_zero_running hh).symm.trans h) nofun
  | succ k ih =>
    cases hh : s.halted with
    | true => rw [runFor_halted j hh, ← h, runFor_halted (k + 1) hh]
    | false =>
      obtain ⟨u, -, hrest⟩ := runFor_succ_running (k := k) hh (by simp [h]) (by simp [h])
      obtain ⟨j, rfl⟩ := Nat.exists_eq_succ_of_ne_zero (Nat.ne_zero_of_lt hkj)
      rw [hrest j]
      exact ih (Nat.le_of_succ_le_succ hkj) ((hrest k).symm.trans h)

/-- Settles O47. -/
theorem runEndsOnlyInHalted : Obligations.RunEndsOnlyInHalted := by
  refine ⟨fun k s t h => ?_, fun k j s t h hkj => runFor_ended_mono hkj h, fun k s t h => ?_⟩
  · obtain ⟨j, u, hj, hend, hthrough, hresult⟩ := runFor_end (k := k) (s := s) (by simp [h]) (by simp [h])
    rcases hresult with ⟨hhalted, hended⟩ | ⟨-, -, hunfinished⟩
    · obtain rfl := RunResult.ended.inj (h.symm.trans hended)
      exact ⟨hhalted, j, hj, hend, hthrough⟩
    · exact absurd (h.symm.trans hunfinished) nofun
  · obtain ⟨j, u, hj, hend, hthrough, hresult⟩ := runFor_end (k := k) (s := s) (by simp [h]) (by simp [h])
    rcases hresult with ⟨-, hended⟩ | ⟨rfl, hrun, hunfinished⟩
    · exact absurd (h.symm.trans hended) nofun
    · obtain rfl := RunResult.unfinished.inj (h.symm.trans hunfinished)
      refine ⟨hrun, hend, fun i hi => ?_⟩
      rcases Nat.lt_or_eq_of_le hi with hlt | rfl
      · exact hthrough i hlt
      · exact ⟨t, hend, hrun⟩

/-! ### The host (R110) -/

theorem hostCommand_running {s : State} (c : HostCommand) (h : s.halted = false) :
    hostCommand c s = .refused .hostWhileRunning := by
  simp [hostCommand, whileHalted, h]

theorem hostQuery_running {s : State} (q : HostQuery) (h : s.halted = false) : hostQuery q s = none := by
  simp [hostQuery, h]

theorem hostCommand_loadWord {a v : Word} {s : State} (h : s.halted = true)
    (hadmitted : kindAt a s.regions ≠ none) :
    hostCommand (.loadWord a v) s = .next (storeWord a v s) := by
  rw [hostCommand, whileHalted, if_pos h]
  exact access_admitted hadmitted

theorem hostQuery_word {a : Word} {s : State} (h : s.halted = true) (hadmitted : kindAt a s.regions ≠ none) :
    hostQuery (.word a) s = some (.word (readWord a s)) := by
  simp [hostQuery, h, Option.isSome_iff_ne_none, hadmitted]

theorem hostCommand_addObserver {s : State} (h : s.halted = true) (n : Nat) :
    hostCommand (.addObserver n) s = .next (addObserver n s) := if_pos h

theorem hostCommand_removeObserver {s : State} (h : s.halted = true) (n : Nat) :
    hostCommand (.removeObserver n) s = .next (removeObserver n s) := if_pos h

/-- Removing leaves no entry of the observer. -/
theorem not_mem_removeObserver (n : Nat) (s : State) : n ∉ (removeObserver n s).observers := by
  simp

theorem count_removeObserver {m n : Nat} (hne : m ≠ n) (s : State) :
    (removeObserver n s).observers.count m = s.observers.count m :=
  List.count_filter (bne_iff_ne.mpr hne)

theorem storeWord_onlyStored (a v : Word) (s : State) : OnlyStored a v s (storeWord a v s) :=
  ⟨fun b => readWord_storeWord s a b v, rfl⟩

theorem sameCore_observers (observers : List Nat) (s : State) :
    SameCore s { s with observers := observers } := ⟨rfl, rfl, rfl, rfl, rfl, rfl, rfl⟩

/-- Settles O45. -/
theorem hostActsOnlyWhileHalted : Obligations.HostActsOnlyWhileHalted := by
  refine ⟨fun c q s h => ⟨hostCommand_running c h, hostQuery_running q h⟩, fun s h =>
    ⟨fun a v hadmitted => ?_, fun a => hostQuery_word h, fun r => if_pos h, if_pos h, ?_, fun n => ?_⟩⟩
  · exact ⟨storeWord a v s, hostCommand_loadWord h hadmitted, storeWord_onlyStored a v s, rfl, rfl, h, rfl⟩
  · rw [hostQuery, if_pos h, h]
  · exact ⟨addObserver n s, removeObserver n s, hostCommand_addObserver h n, rfl, sameCore_observers _ s,
      hostCommand_removeObserver h n, not_mem_removeObserver n s, List.filter_sublist,
      fun m hne => count_removeObserver hne s, sameCore_observers _ s⟩

/-! ### The output streams and the observers have no influence (R96) -/

/-- The state with no observers and nothing recorded in the output streams. -/
def withoutOutputs (s : State) : State := { s with observers := [], trace := [], bus := [] }

theorem sameCore_iff {s u : State} : SameCore s u ↔ withoutOutputs u = withoutOutputs s := by
  simp [SameCore, withoutOutputs]

section Outputs

variable (s : State)

theorem withoutOutputs_postAdvance (a : Word) (wrote15 : Bool) :
    withoutOutputs (postAdvance hardware a wrote15 s) = postAdvance hardware a wrote15 (withoutOutputs s) := by
  cases wrote15 <;> rfl

theorem withoutOutputs_recordFlag (fl : Flag) :
    withoutOutputs (recordFlag fl s) = recordFlag fl (withoutOutputs s) := by
  unfold recordFlag
  split <;> rfl

theorem withoutOutputs_writeReg (r : Reg) (v : Word) :
    withoutOutputs (writeReg r v s) = writeReg r v (withoutOutputs s) := rfl

theorem withoutOutputs_logAccess (k : AccessKind) (a v : Word) :
    withoutOutputs (logAccess k a v s) = withoutOutputs s := rfl

theorem withoutOutputs_afterRead (c : Params) (a : Word) :
    withoutOutputs (afterRead c a s) = afterRead c a (withoutOutputs s) := rfl

theorem withoutOutputs_afterWrite (c : Params) (a v : Word) :
    withoutOutputs (afterWrite c a v s) = afterWrite c a v (withoutOutputs s) := rfl

theorem withoutOutputs_enterHalted :
    withoutOutputs (enterHalted s) = enterHalted (withoutOutputs s) := rfl

theorem readReg_withoutOutputs (r : Reg) : readReg r (withoutOutputs s) = readReg r s := rfl

theorem compute_withoutOutputs (c : Params) (op : Opcode) (f : Fields) :
    compute c op f (withoutOutputs s) = compute c op f s := rfl

theorem wordRead_withoutOutputs (c : Params) (a : Word) :
    wordRead c a (withoutOutputs s) = wordRead c a s := rfl

theorem pcOf_withoutOutputs : pcOf (withoutOutputs s) = pcOf s := rfl

theorem withoutOutputs_idem : withoutOutputs (withoutOutputs s) = withoutOutputs s := rfl

/-- What an executed instruction leaves, the output streams apart, depends on the rest of the state alone. -/
theorem withoutOutputs_resultOf (i : Instr) :
    withoutOutputs (resultOf i s) = withoutOutputs (resultOf i (withoutOutputs s)) := by
  cases i <;>
    simp only [resultOf, arithResult, loadResult, storeResult, haltResult, invalidResult,
      withoutOutputs_postAdvance, withoutOutputs_writeReg, withoutOutputs_logAccess,
      withoutOutputs_afterRead, withoutOutputs_afterWrite, withoutOutputs_enterHalted,
      withoutOutputs_recordFlag, readReg_withoutOutputs, compute_withoutOutputs, wordRead_withoutOutputs,
      pcOf_withoutOutputs, withoutOutputs_idem]

theorem dataAddr_withoutOutputs (i : Instr) : dataAddr i (withoutOutputs s) = dataAddr i s := by
  cases i <;> rfl

end Outputs

section SameCore

variable {s u : State} (h : SameCore s u)
include h

/-- A function of the state that the observers and the output streams do not reach is the same of both. -/
theorem sameCore_congr {α : Sort*} {g : State → α} (hg : ∀ s, g s = g (withoutOutputs s)) :
    g u = g s := by
  rw [hg u, hg s, sameCore_iff.mp h]

theorem sameCore_map {g : State → State}
    (hg : ∀ s, withoutOutputs (g s) = withoutOutputs (g (withoutOutputs s))) : SameCore (g s) (g u) :=
  sameCore_iff.mpr (sameCore_congr h (g := fun s => withoutOutputs (g s)) hg)

theorem sameAnswer_exec_of_sameCore (i : Instr) : SameAnswer SameCore (exec i s) (exec i u) := by
  have hcond : u.cond = s.cond := sameCore_congr h fun _ => rfl
  cases hp : passes s.cond i.fields.mask with
  | false =>
    rw [exec_skip hp, exec_skip (hcond ▸ hp)]
    exact sameAnswer_next (sameCore_map h fun _ => rfl)
  | true =>
    have hresult := sameAnswer_next (sameCore_map h fun s => withoutOutputs_resultOf s i)
    have haddr : dataAddr i u = dataAddr i s :=
      sameCore_congr h fun s => (dataAddr_withoutOutputs s i).symm
    rw [exec_pass hp, exec_pass (hcond ▸ hp), haddr]
    cases dataAddr i s with
    | none => exact hresult
    | some a => exact sameAnswer_access a (sameCore_congr h fun _ => rfl) hresult

end SameCore

/-- Settles O55: both fetch the same instruction, and it answers alike. -/
theorem observersDoNotInfluenceTheCore : Obligations.ObserversDoNotInfluenceTheCore := by
  intro s u h
  have hhalted : u.halted = s.halted := sameCore_congr h fun _ => rfl
  have hpc : pcOf u = pcOf s := sameCore_congr h fun _ => rfl
  have hfetched : fetched u = fetched s := sameCore_congr h fun _ => rfl
  cases hh : s.halted with
  | true =>
    rw [step_halted hh, step_halted (hhalted ▸ hh)]
    exact sameAnswer_next h
  | false =>
    rw [step_running hh, step_running (hhalted ▸ hh), hpc, hfetched]
    refine sameAnswer_access _ (sameCore_congr h fun _ => rfl) (sameAnswer_exec_of_sameCore ?_ _)
    exact sameCore_map h fun _ => rfl

/-! ### The orders of the advance (R105) -/

/-- This hardware's parameters with any overflow policy and any order of the advance. -/
def ordered (p : OverflowPolicy) (o : PcOrder) : Params := { overflow := p, pcOrder := o }

theorem postAdvance_incrementAfterWrite (p : OverflowPolicy) (a : Word) (wrote15 : Bool) (m : State) :
    postAdvance (ordered p .incrementAfterWrite) a wrote15 m = writeReg pcReg (nextAddr (pcOf m)) m := rfl

theorem preAdvance_incrementAfterWrite (p : OverflowPolicy) (a : Word) (m : State) :
    preAdvance (ordered p .incrementAfterWrite) a m = m := rfl

theorem postAdvance_advanceOverrides (p : OverflowPolicy) (a : Word) (wrote15 : Bool) (m : State) :
    postAdvance (ordered p .advanceOverrides) a wrote15 m = writeReg pcReg (nextAddr a) m := rfl

theorem postAdvance_advanceBeforeWriteback (p : OverflowPolicy) (a : Word) (wrote15 : Bool) (m : State) :
    postAdvance (ordered p .advanceBeforeWriteback) a wrote15 m = m := rfl

theorem preAdvance_advanceBeforeWriteback (p : OverflowPolicy) (a : Word) (m : State) :
    preAdvance (ordered p .advanceBeforeWriteback) a m = writeReg pcReg (nextAddr a) m := rfl

/-- The address of an executed instruction's data access, under any parameters. -/
def dataAddrUnder (c : Params) (i : Instr) (s : State) : Option Word :=
  match i.op with
  | .load | .store => some (compute c i.op i.fields s).1
  | _ => none

/-- The word an executed instruction writes into its target, under any parameters (R103). -/
def targetUnder (c : Params) (i : Instr) (s : State) : Option Word :=
  match i.op with
  | .load => some (wordRead c (compute c i.op i.fields s).1 s)
  | .add | .sub | .mul | .div => some (compute c i.op i.fields s).1
  | .store | .halt | .invalid => none

/-- An executed instruction's effect on memory and on `halted`, made in `m`, the state with the flag and the
advance before the dispatch. -/
def acted (c : Params) (i : Instr) (s m : State) : State :=
  match i.op with
  | .halt => enterHalted m
  | .load =>
    logAccess .load (compute c i.op i.fields s).1 (wordRead c (compute c i.op i.fields s).1 s)
      (afterRead c (compute c i.op i.fields s).1 m)
  | .store =>
    logAccess .store (compute c i.op i.fields s).1 (storeData c i.fields s)
      (afterWrite c (compute c i.op i.fields s).1 (storeData c i.fields s) m)
  | .add | .sub | .mul | .div | .invalid => m

/-- The write of the target, if there is a word for it. -/
def writeTarget (r : Reg) : Option Word → State → State
  | some v, m => writeReg r v m
  | none, m => m

/-- The state with the flag of an executed instruction. -/
def flagged (c : Params) (i : Instr) (s : State) : State :=
  recordFlag (compute c i.op i.fields s).2 s

/-- The state an executed instruction leaves, under any parameters. -/
def resultUnder (c : Params) (i : Instr) (s : State) : State :=
  postAdvance c (pcOf s) ((targetUnder c i s).isSome && i.fields.t == pcReg)
    (writeTarget i.fields.t (targetUnder c i s)
      (acted c i s (preAdvance c (pcOf s) (flagged c i s))))

theorem execUnder_pass {c : Params} {i : Instr} {s : State} (h : passes s.cond i.fields.mask = true) :
    execUnder c i s =
      (dataAddrUnder c i s).elim (.next (resultUnder c i s))
        fun a => access a s (.next (resultUnder c i s)) := by
  cases i <;> exact conditional_pass h

theorem execUnder_pass_next {c : Params} {i : Instr} {s t : State} (hpass : passes s.cond i.fields.mask = true)
    (h : execUnder c i s = .next t) : t = resultUnder c i s := by
  rw [execUnder_pass hpass] at h
  cases haddr : dataAddrUnder c i s with
  | none =>
    rw [haddr] at h
    exact next_eq_next.mp h
  | some a =>
    rw [haddr] at h
    obtain ⟨-, ht⟩ := access_next.mp h
    exact next_eq_next.mp ht

theorem targetUnder_ordered (o : PcOrder) (i : Instr) (s : State) :
    targetUnder (ordered .wrap o) i s = targetValue i s := by
  cases i with
  | load f => exact congrArg (fun a => some (wordRead hardware a s)) (compute_load_fst f s)
  | add f => exact congrArg (some ·.1) (compute_eq_aluOf (.add f) s)
  | sub f => exact congrArg (some ·.1) (compute_eq_aluOf (.sub f) s)
  | mul f => exact congrArg (some ·.1) (compute_eq_aluOf (.mul f) s)
  | div f => exact congrArg (some ·.1) (compute_eq_aluOf (.div f) s)
  | halt | store | invalid7 | invalidHigh => rfl

/-- The effect on memory and on `halted` changes no register. -/
theorem pcOf_acted (c : Params) (i : Instr) (s m : State) : pcOf (acted c i s m) = pcOf m := by
  unfold acted
  split <;> rfl

theorem acted_writeReg (c : Params) (i : Instr) (s m : State) (r : Reg) (v : Word) :
    acted c i s (writeReg r v m) = writeReg r v (acted c i s m) := by
  unfold acted
  split <;> rfl

theorem pcOf_writeTarget (r : Reg) (o : Option Word) (m : State) :
    pcOf (writeTarget r o m) = if r = pcReg then o.getD (pcOf m) else pcOf m := by
  cases o with
  | none => exact (ite_self _).symm
  | some v => exact pcOf_writeReg m r v

/-- Under `increment_after_write` r15 is one above what the dispatch left in it. -/
theorem pcOf_incrementAfterWrite (i : Instr) (s : State) :
    pcOf (resultUnder (ordered .wrap .incrementAfterWrite) i s) =
      nextAddr (if i.fields.t = 15 then (targetValue i s).getD (pcOf s) else pcOf s) := by
  rw [resultUnder, postAdvance_incrementAfterWrite, preAdvance_incrementAfterWrite, pcOf_writeReg, if_pos rfl,
    pcOf_writeTarget, pcOf_acted, flagged, pcOf_recordFlag, targetUnder_ordered, pcReg]

theorem pcOf_advanceOverrides (i : Instr) (s : State) :
    pcOf (resultUnder (ordered .wrap .advanceOverrides) i s) = nextAddr (pcOf s) := by
  rw [resultUnder, postAdvance_advanceOverrides, pcOf_writeReg, if_pos rfl]

/-- Two writes to one register leave the later one. -/
theorem writeReg_writeReg_self (r : Reg) (v w : Word) (s : State) :
    writeReg r v (writeReg r w s) = writeReg r v s := by
  unfold writeReg putCell markWritten
  by_cases hr : r = 0 <;> simp [hr]

/-- Writes to two registers may change places. -/
theorem writeReg_comm {r q : Reg} (h : r ≠ q) (v w : Word) (s : State) :
    writeReg r v (writeReg q w s) = writeReg q w (writeReg r v s) := by
  unfold writeReg putCell markWritten
  by_cases hr : r = 0
  · simp [hr]
  · by_cases hq : q = 0
    · simp [hr, hq]
    · have hne : (r : Nat) ≠ q := fun e => h (Fin.ext e)
      simp only [hr, hq, if_false, Vector.set_comm _ _ hne]

/-- The advance before the write of the target leaves what it leaves after it, r15 being written last. -/
theorem writeTarget_advance (r : Reg) (o : Option Word) (a : Word) (m : State) :
    writeTarget r o (writeReg pcReg (nextAddr a) m) =
      postAdvance hardware a (o.isSome && r == pcReg) (writeTarget r o m) := by
  cases o with
  | none => rfl
  | some v =>
    by_cases hr : r = pcReg
    · subst hr
      exact writeReg_writeReg_self pcReg v _ m
    · simp [writeTarget, hr, writeReg_comm hr]

/-- The word a STORE stores is that of `write_wins`, unless it stores r15. -/
theorem acted_advanceBeforeWriteback (p : OverflowPolicy) {i : Instr} (s m : State)
    (h : ¬ (i.op = .store ∧ i.fields.t = 15)) :
    acted (ordered p .advanceBeforeWriteback) i s m =
      acted (ordered p .writeWins) i s m := by
  cases i with
  | store f =>
    have hdata : storeData (ordered p .advanceBeforeWriteback) f s = readReg f.t s :=
      readReg_writeReg_ne s _ fun ht => h ⟨rfl, ht⟩
    simp only [acted, Instr.op, Instr.fields, hdata]
    rfl
  | _ => rfl

theorem resultUnder_advanceBeforeWriteback (p : OverflowPolicy) {i : Instr} (s : State)
    (h : ¬ (i.op = .store ∧ i.fields.t = 15)) :
    resultUnder (ordered p .advanceBeforeWriteback) i s =
      resultUnder (ordered p .writeWins) i s := by
  rw [resultUnder, acted_advanceBeforeWriteback p s _ h]
  rw [postAdvance_advanceBeforeWriteback, preAdvance_advanceBeforeWriteback, acted_writeReg]
  exact writeTarget_advance _ _ _ _

theorem execUnder_advanceBeforeWriteback (p : OverflowPolicy) {i : Instr} (s : State)
    (h : ¬ (i.op = .store ∧ i.fields.t = 15)) :
    execUnder (ordered p .advanceBeforeWriteback) i s = execUnder (ordered p .writeWins) i s := by
  cases hp : passes s.cond i.fields.mask with
  | false => rw [execUnder_skip hp, execUnder_skip hp]
  | true =>
    rw [execUnder_pass hp, execUnder_pass hp, resultUnder_advanceBeforeWriteback p s h]
    rfl

/-- A STORE of r15 stores the next address under `advance_before_writeback`. -/
theorem readWord_store_advanceBeforeWriteback {f : Fields} {s : State} (ht : f.t = 15)
    (hstorage : isStorage (ea f s) s = true) :
    readWord (ea f s) (resultUnder (ordered .wrap .advanceBeforeWriteback) (.store f) s) =
      nextAddr (pcOf s) := by
  have hdata : storeData (ordered .wrap .advanceBeforeWriteback) f s = nextAddr (pcOf s) := by
    rw [storeData, ht]
    exact readReg_writeReg_self s pcReg _
  have hea : (compute (ordered .wrap .advanceBeforeWriteback) .store f s).1 = ea f s := compute_store_fst f s
  have hstorage' (fl : Flag) :
      isStorage (ea f s) (writeReg pcReg (nextAddr (pcOf s)) (recordFlag fl s)) = true :=
    (isStorage_congr _ (recordFlag_regions s fl)).trans hstorage
  rw [resultUnder, postAdvance_advanceBeforeWriteback, preAdvance_advanceBeforeWriteback]
  simp only [targetUnder, writeTarget, acted, flagged, Instr.op, Instr.fields]
  rw [hea, hdata, readWord_logAccess, afterWrite_storage _ (hstorage' _), readWord_storeWord, if_pos rfl]

theorem execUnder_store_advanceBeforeWriteback {f : Fields} {s : State} (hpass : passes s.cond f.mask = true)
    (hstorage : isStorage (ea f s) s = true) :
    execUnder (ordered .wrap .advanceBeforeWriteback) (.store f) s =
      .next (resultUnder (ordered .wrap .advanceBeforeWriteback) (.store f) s) := by
  have haddr : dataAddrUnder (ordered .wrap .advanceBeforeWriteback) (.store f) s = some (ea f s) :=
    congrArg some (compute_store_fst f s)
  rw [execUnder_pass hpass, haddr]
  exact access_admitted (isStorage_admitted hstorage)

/-- Settles O32: the advance is made before or after the same dispatch. -/
theorem pcOrderAlternativesDifferAsStated : Obligations.PcOrderAlternativesDifferAsStated := by
  refine ⟨fun i s t hpass h => ?_, fun i s t hpass h => ?_,
    fun p i s hi => execUnder_advanceBeforeWriteback p s hi, fun f s ht hpass hstorage => ?_⟩
  · obtain rfl := execUnder_pass_next hpass h
    exact (pcOf_incrementAfterWrite i s).trans (apply_ite nextAddr _ _ _)
  · obtain rfl := execUnder_pass_next hpass h
    exact pcOf_advanceOverrides i s
  · exact ⟨_, execUnder_store_advanceBeforeWriteback hpass hstorage,
      readWord_store_advanceBeforeWriteback ht hstorage⟩

end Sys2Proof.Proofs
end

section
/-! PROOF. The statements about ADD, SUB, MUL and DIV (spec/42_arithmetic.md): what the shape the four share
leaves from its ALU call, the ALU call of each in the words of the statements, the OPEN overflow policy, and the
theorems that settle the statements. -/

namespace Sys2Proof.Proofs

open Sys2Proof.Machine Sys2Proof.Claims

/-! ### The shape the four share (R103, R106) -/

section Arith

variable {c : Params} {op : Opcode} {f : Fields} {s : State} {v : Word}

/-- Under `write_wins` an executed arithmetic instruction writes what its ALU call answers, whatever the
overflow policy. -/
theorem arith_writes (horder : c.pcOrder = .writeWins) (hpass : passes s.cond f.mask = true) {fl : Flag}
    (h : compute c op f s = (v, fl)) :
    ∃ t, arith c op f s = .next t ∧ TargetWritten f v fl (fl == .v) s t ∧ MemoryUnchanged s t ∧
      t.bus = s.bus := by
  refine ⟨postAdvance hardware (pcOf s) (f.t == pcReg) (writeReg f.t v (recordFlag fl s)), ?_,
    targetWritten_of_flagOnly (flagOnly_recordFlag fl s) f v, memoryUnchanged_of_eq ?_ ?_, ?_⟩
  · rw [arith, conditional_pass hpass, h]
    simp only [postAdvance, preAdvance, horder, hardware]
  · rw [postAdvance_mem, writeReg_mem, recordFlag_mem]
  · rw [postAdvance_device, writeReg_device, recordFlag_device]
  · rw [postAdvance_bus, writeReg_bus, recordFlag_bus]

/-- A value with its own flag is no fault: the CORE goes on. -/
theorem arith_writes_value (hpass : passes s.cond f.mask = true)
    (h : compute hardware op f s = (v, flagOf v)) :
    ∃ t, arith hardware op f s = .next t ∧ TargetWritten f v (flagOf v) false s t ∧ t.cond ≠ .v ∧
      MemoryUnchanged s t ∧ t.bus = s.bus := by
  obtain ⟨t, hexec, htarget, hframe⟩ := arith_writes rfl hpass h
  rw [beq_eq_false_iff_ne.mpr (flagOf_ne_v v)] at htarget
  have ⟨_, _, hcond, _⟩ := htarget
  exact ⟨t, hexec, htarget, hcond ▸ flagOf_ne_v v, hframe⟩

end Arith

/-- `mk` makes the instructions with operation `op`, and what they do is the shared shape. -/
structure ArithmeticForm (op : Opcode) (mk : Fields → Instr) : Prop where
  defined : op ≠ .invalid
  parts : ∀ f, (mk f).op = op ∧ (mk f).fields = f
  execUnder_eq : ∀ c f s, execUnder c (mk f) s = arith c op f s

theorem arithmeticForm_add : ArithmeticForm .add .add := ⟨nofun, fun _ => ⟨rfl, rfl⟩, fun _ _ _ => rfl⟩
theorem arithmeticForm_sub : ArithmeticForm .sub .sub := ⟨nofun, fun _ => ⟨rfl, rfl⟩, fun _ _ _ => rfl⟩
theorem arithmeticForm_mul : ArithmeticForm .mul .mul := ⟨nofun, fun _ => ⟨rfl, rfl⟩, fun _ _ _ => rfl⟩
theorem arithmeticForm_div : ArithmeticForm .div .div := ⟨nofun, fun _ => ⟨rfl, rfl⟩, fun _ _ _ => rfl⟩

/-! ### The ALU call of MUL and DIV (R80, R81) -/

theorem compute_mul (f : Fields) (s : State) :
    compute hardware .mul f s =
      (wrap (leftOf f s * rightOf f s), flagOf (wrap (leftOf f s * rightOf f s))) := by
  have hproduct : wrap ((readReg f.s1 s).toInt * (wrap (rightOf f s)).toInt) =
      wrap (leftOf f s * rightOf f s) := by
    rw [leftOf, wrap_mul, wrap_mul, wrap_toInt, wrap_toInt]
  exact (compute_hardware .mul f s).trans
    ((alu_wrap_exactValue rfl).trans (congrArg (fun v => (v, flagOf v)) hproduct))

theorem compute_div {f : Fields} {s : State} (h : wrap (rightOf f s) ≠ 0) :
    compute hardware .div f s =
      (wrap (Int.fdiv (leftOf f s) (wrap (rightOf f s)).toInt),
        flagOf (wrap (Int.fdiv (leftOf f s) (wrap (rightOf f s)).toInt))) :=
  (compute_hardware .div f s).trans (alu_wrap_exactValue (exactValue_div _ h))

theorem compute_div_zero {f : Fields} {s : State} (h : wrap (rightOf f s) = 0) :
    compute hardware .div f s = (0, .v) :=
  (compute_hardware .div f s).trans (alu_no_exactValue .wrap (if_pos h))

/-! ### The OPEN overflow policy `fault` (R84, R100) -/

theorem inWordRange_eq_false_iff {e : Int} : inWordRange e = false ↔ ¬ Fits e := by
  rw [← Bool.not_eq_true, inWordRange_iff_fits]

/-- Lean's quotient by 0 is 0, which is in range. -/
theorem fits_fdiv_zero (a : Int) : Fits (Int.fdiv a 0) := by
  rw [Int.fdiv_zero]
  decide

/-- Where `noOverflow` fails, the right operand or the ALU's exact value is out of range. A zero divisor is not
such a case: it has no exact value. -/
theorem noOverflow_eq_false {op : Opcode} {l b : Word} {off : Offset} (h : noOverflow op l b off = false) :
    inWordRange (b.toInt + off.toInt) = false ∨
      ∃ e, exactValue op l (wrap (b.toInt + off.toInt)) = some e ∧ ¬ Fits e := by
  cases hright : inWordRange (b.toInt + off.toInt) with
  | false => exact .inl rfl
  | true =>
    have hexact := toInt_wrap_of_range hright
    rw [noOverflow.eq_def, hright, Bool.true_and] at h
    right
    cases op with
    | halt | invalid => exact absurd h nofun
    | div =>
      have hnonzero : wrap (b.toInt + off.toInt) ≠ 0 := fun hzero =>
        have hsum : b.toInt + off.toInt = 0 := hexact.symm.trans (congrArg BitVec.toInt hzero)
        inWordRange_eq_false_iff.mp h (hsum ▸ fits_fdiv_zero l.toInt)
      exact ⟨_, exactValue_div l hnonzero, hexact.symm ▸ inWordRange_eq_false_iff.mp h⟩
    | load | store | add | sub | mul => exact ⟨_, rfl, hexact.symm ▸ inWordRange_eq_false_iff.mp h⟩

theorem compute_faulting_overflow {op : Opcode} {f : Fields} {s : State}
    (h : noOverflow op (readReg f.s1 s) (readReg f.s2 s) f.off = false) :
    compute faulting op f s = (0, .v) := by
  cases hright : inWordRange ((readReg f.s2 s).toInt + f.off.toInt) with
  | false => simp [compute, formRight, faulting, hright, faultResult]
  | true =>
    obtain ⟨e, he, hout⟩ := (noOverflow_eq_false h).resolve_left (by simp [hright])
    have halu := (alu_exactValue .fault he).trans (settle_fault_not_fits hout)
    simpa [compute, formRight, faulting, hright] using halu

section Form

variable {op : Opcode} {mk : Fields → Instr}

/-- The policy `fault` reaches exactly the executions whose values leave the word range. -/
theorem faultsOutOfRange_of_noOverflow (hform : ArithmeticForm op mk) {inRange : Fields → State → Prop}
    (hrange : ∀ f s, noOverflow op (readReg f.s1 s) (readReg f.s2 s) f.off = true ↔ inRange f s) :
    FaultsOutOfRange mk inRange := by
  intro f s hpass
  obtain ⟨hop, hfields⟩ := hform.parts f
  refine ⟨fun hout => ?_, fun hin => ?_⟩
  · rw [hform.execUnder_eq]
    exact arith_writes rfl hpass
      (compute_faulting_overflow (Bool.eq_false_iff.mpr (mt (hrange f s).mp hout)))
  · refine overflowPolicyMattersOnlyOutOfRange (mk f) s ?_
    rw [hop, hfields]
    exact (hrange f s).mpr hin

theorem exec_arithmeticForm (hform : ArithmeticForm op mk) (f : Fields) (s : State) :
    exec (mk f) s = arith hardware op f s :=
  (execUnder_hardware (mk f) s).symm.trans (hform.execUnder_eq hardware f s)

theorem arithmeticInstruction_of_compute (hform : ArithmeticForm op mk) {exact : Int → Int → Int}
    (hcompute : ∀ f s, compute hardware op f s =
      (wrap (exact (leftOf f s) (rightOf f s)), flagOf (wrap (exact (leftOf f s) (rightOf f s)))))
    (hrange : ∀ f s, noOverflow op (readReg f.s1 s) (readReg f.s2 s) f.off = true ↔
      Fits (rightOf f s) ∧ Fits (exact (leftOf f s) (rightOf f s))) :
    ArithmeticInstruction (opcodeBits op).toNat mk exact := by
  refine ⟨encodedWithOpcode_opcodeBits hform.defined hform.parts, fun f s hpass => ?_,
    faultsOutOfRange_of_noOverflow hform hrange⟩
  rw [exec_arithmeticForm hform]
  exact arith_writes_value hpass (hcompute f s)

end Form

/-- Both range tests of `noOverflow`, as the statements say them. -/
theorem inWordRange_and_iff (a b : Int) :
    (inWordRange a && inWordRange b) = true ↔ Fits a ∧ Fits b := by
  rw [Bool.and_eq_true_iff, inWordRange_iff_fits, inWordRange_iff_fits]

theorem noOverflow_div_iff (f : Fields) (s : State) :
    noOverflow .div (readReg f.s1 s) (readReg f.s2 s) f.off = true ↔
      Fits (rightOf f s) ∧ (rightOf f s ≠ 0 → Fits (Int.fdiv (leftOf f s) (rightOf f s))) := by
  refine (inWordRange_and_iff (rightOf f s) (Int.fdiv (leftOf f s) (rightOf f s))).trans
    (and_congr_right fun _ => ⟨fun h _ => h, fun h => ?_⟩)
  by_cases hzero : rightOf f s = 0
  · exact hzero ▸ fits_fdiv_zero (leftOf f s)
  · exact h hzero

/-! ### The four statements -/

/-- Settles O20. -/
theorem addWritesTheWrappedSum : Obligations.AddWritesTheWrappedSum := by
  refine ⟨arithmeticInstruction_of_compute arithmeticForm_add compute_add fun _ _ => inWordRange_and_iff _ _,
    fun s => ?_⟩
  obtain ⟨t, hexec, ⟨htarget, -, hcond, -⟩, -⟩ :=
    exec_add_writes (f := fieldsOf 0x3F100005) (passes_always s.cond) (wrap_address rfl rfl)
  exact ⟨t, hexec, htarget, hcond⟩

/-- Settles O21. -/
theorem subWritesTheWrappedDifference : Obligations.SubWritesTheWrappedDifference := by
  refine ⟨arithmeticInstruction_of_compute arithmeticForm_sub compute_sub fun _ _ => inWordRange_and_iff _ _,
    fun s => ?_⟩
  obtain ⟨t, hexec, ⟨htarget, -, hcond, -⟩, -⟩ :=
    exec_sub_writes (f := fieldsOf 0x4F100007) (passes_always s.cond) (congrArg wrap (left_sub_offset rfl))
  exact ⟨t, hexec, htarget, hcond⟩

/-- Settles O22. -/
theorem mulWritesTheLowProduct : Obligations.MulWritesTheLowProduct := by
  refine ⟨arithmeticInstruction_of_compute arithmeticForm_mul compute_mul fun _ _ => inWordRange_and_iff _ _,
    fun s h1 h2 => ?_⟩
  have hleft : leftOf (fieldsOf 0x5F312000) s = 6 := congrArg BitVec.toInt h1
  have hright : rightOf (fieldsOf 0x5F312000) s = 7 := congrArg (fun w : Word => w.toInt + 0) h2
  have hcompute := compute_mul (fieldsOf 0x5F312000) s
  rw [hleft, hright] at hcompute
  obtain ⟨t, hexec, ⟨htarget, -, hcond, -⟩, -⟩ := arith_writes_value (passes_always s.cond) hcompute
  exact ⟨t, hexec, htarget, hcond⟩

/-- Settles O23: a nonzero divisor has an exact quotient, and a zero divisor is the ALU's fault. -/
theorem divWritesTheFloorQuotientOrFaults : Obligations.DivWritesTheFloorQuotientOrFaults := by
  refine ⟨encodedWithOpcode_opcodeBits arithmeticForm_div.defined arithmeticForm_div.parts,
    fun f s hpass => ⟨fun hne => arith_writes_value hpass (compute_div hne),
      fun hzero => arith_writes rfl hpass (compute_div_zero hzero)⟩,
    faultsOutOfRange_of_noOverflow arithmeticForm_div noOverflow_div_iff, fun s h1 => ?_, fun s _ => ?_⟩
  · have hleft : leftOf (fieldsOf 0x6F210002) s = -7 := congrArg BitVec.toInt h1
    have hright : wrap (rightOf (fieldsOf 0x6F210002) s) = 2 := rfl
    have hcompute := compute_div (f := fieldsOf 0x6F210002) (s := s) (hright ▸ by decide)
    rw [hleft, hright] at hcompute
    obtain ⟨t, hexec, ⟨htarget, -, hcond, -⟩, -⟩ := arith_writes_value (passes_always s.cond) hcompute
    exact ⟨t, hexec, htarget, hcond⟩
  · obtain ⟨t, hexec, ⟨htarget, -, hcond, hhalted, -⟩, -⟩ :=
      arith_writes rfl (passes_always s.cond) (compute_div_zero (f := fieldsOf 0x6F210000) (s := s) rfl)
    exact ⟨t, hexec, htarget, hcond, hhalted.trans (Bool.or_true _)⟩

end Sys2Proof.Proofs
end

section
/-! PROOF. The statements about LOAD and STORE (spec/43_load_store.md): what each leaves at storage from its ALU
call, whatever the overflow policy, the address that is not admitted, and the theorems that settle the
statements. -/

namespace Sys2Proof.Proofs

open Sys2Proof.Machine Sys2Proof.Claims

/-- An executed LOAD or STORE at an address the memory does not admit is the model fault (R46). -/
theorem exec_not_admitted {i : Instr} {s : State} {x : Word} (hpass : passes s.cond i.fields.mask = true)
    (hx : dataAddr i s = some x) (h : kindAt x s.regions = none) : exec i s = .fault (.memoryRange x) := by
  rw [exec_pass hpass, hx]
  exact access_absent h

/-! ### LOAD and STORE at storage, from the ALU call -/

section Storage

variable {c : Params} {f : Fields} {s : State} {x : Word} {fl : Flag} {halts : Bool}

/-- Under `write_wins` an executed LOAD whose ALU call answers an address in storage reads the word there,
whatever the overflow policy (R106, R117). -/
theorem load_reads (horder : c.pcOrder = .writeWins) (hpass : passes s.cond f.mask = true)
    (h : compute c .load f s = (x, fl)) (hhalts : (fl == .v) = halts) (hx : isStorage x s = true) :
    ∃ t, execUnder c (.load f) s = .next t ∧ TargetWritten f (readWord x s) fl halts s t ∧
      MemoryUnchanged s t ∧ t.bus = { kind := .load, addr := x, word := readWord x s } :: s.bus := by
  subst hhalts
  have hread : afterRead c x (recordFlag fl s) = recordFlag fl s :=
    afterRead_storage c ((isStorage_congr x (recordFlag_regions s fl)).trans hx)
  refine ⟨postAdvance hardware (pcOf s) (f.t == pcReg)
      (writeReg f.t (readWord x s) (logAccess .load x (readWord x s) (recordFlag fl s))), ?_,
    targetWritten_of_flagOnly (flagOnly_logAccess (flagOnly_recordFlag fl s) _ _ _) f _,
    memoryUnchanged_of_eq ?_ ?_, ?_⟩
  · rw [execUnder, loadOp, conditional_pass hpass, h, access_admitted (isStorage_admitted hx),
      wordRead_storage c hx]
    simp only [postAdvance, preAdvance, horder, hardware, hread]
  · rw [postAdvance_mem, writeReg_mem, logAccess_mem, recordFlag_mem]
  · rw [postAdvance_device, writeReg_device, logAccess_device, recordFlag_device]
  · rw [postAdvance_bus, writeReg_bus, logAccess_bus, recordFlag_bus]

/-- Under `write_wins` an executed STORE whose ALU call answers an address in storage stores `x[t]` there,
whatever the overflow policy (R106, R118). -/
theorem store_writes (horder : c.pcOrder = .writeWins) (hpass : passes s.cond f.mask = true)
    (h : compute c .store f s = (x, fl)) (hhalts : (fl == .v) = halts) (hx : isStorage x s = true) :
    ∃ t, execUnder c (.store f) s = .next t ∧ OnlyAdvanced fl halts s t ∧
      OnlyStored x (readReg f.t s) s t ∧
      t.bus = { kind := .store, addr := x, word := readReg f.t s } :: s.bus := by
  subst hhalts
  have hdata : storeData c f s = readReg f.t s := by simp only [storeData, preAdvance, horder]
  have hwrite : afterWrite c x (readReg f.t s) (recordFlag fl s) =
      storeWord x (readReg f.t s) (recordFlag fl s) :=
    afterWrite_storage c ((isStorage_congr x (recordFlag_regions s fl)).trans hx)
  refine ⟨writeReg pcReg (nextAddr (pcOf s))
      (logAccess .store x (readReg f.t s) (afterWrite c x (readReg f.t s) (recordFlag fl s))), ?_,
    onlyAdvanced_of_flagOnly
      (flagOnly_logAccess (flagOnly_takeEffect (flagOnly_recordFlag fl s) _) _ _ _), ⟨fun a => ?_, ?_⟩, ?_⟩
  · rw [execUnder, storeOp, conditional_pass hpass, h, access_admitted (isStorage_admitted hx), hdata]
    simp only [postAdvance, preAdvance, horder, Bool.false_eq_true, if_false]
  · rw [readWord_writeReg, readWord_logAccess, hwrite, readWord_storeWord, readWord_recordFlag]
  · rw [writeReg_device, logAccess_device, hwrite, storeWord_device, recordFlag_device]
  · rw [writeReg_bus, logAccess_bus, afterWrite_bus, recordFlag_bus]

end Storage

/-! ### An overflow of the address under the policy `fault` (R84, R88) -/

theorem compute_address_overflow {op : Opcode} {f : Fields} {s : State} (hop : op = .load ∨ op = .store)
    (h : ¬ (Fits (rightOf f s) ∧ Fits (leftOf f s + rightOf f s))) : compute faulting op f s = (0, .v) := by
  have hout := Bool.eq_false_iff.mpr (mt (inWordRange_and_iff _ _).mp h)
  rcases hop with rfl | rfl
  · exact compute_faulting_overflow hout
  · exact compute_faulting_overflow hout

/-! ### The two statements -/

/-- Settles O24: the ALU call answers the effective address with its own flag, or, on an overflow under `fault`,
the address 0 with V. -/
theorem loadReadsTheWordAtTheEffectiveAddress : Obligations.LoadReadsTheWordAtTheEffectiveAddress := by
  refine ⟨encodedWithOpcode_opcodeBits (op := .load) nofun fun _ => ⟨rfl, rfl⟩,
    fun f s hpass => ⟨fun hx => ?_, fun hx => ?_⟩, fun f s hpass => ⟨fun hin => ?_, fun hout hx => ?_⟩,
    fun s hx hword => ?_⟩
  · exact load_reads rfl hpass (compute_load f s) (beq_eq_false_iff_ne.mpr (flagOf_ne_v _)) hx
  · exact exec_not_admitted hpass (congrArg some (compute_load_fst f s)) hx
  · exact overflowPolicyMattersOnlyOutOfRange (.load f) s ((inWordRange_and_iff _ _).mpr hin)
  · exact load_reads rfl hpass (compute_address_overflow (.inl rfl) hout) rfl hx
  · obtain ⟨t, hexec, ⟨htarget, -, hcond, -⟩, -⟩ :=
      exec_load_storage (f := fieldsOf 0x1F300064) (passes_always s.cond) (wrap_address rfl rfl) hx
    exact ⟨t, hexec, htarget.trans hword, hcond⟩

/-- Settles O25: the ALU call is LOAD's; the word stored is `x[t]`, read before the advance. -/
theorem storeWritesTheWordAtTheEffectiveAddress : Obligations.StoreWritesTheWordAtTheEffectiveAddress := by
  refine ⟨encodedWithOpcode_opcodeBits (op := .store) nofun fun _ => ⟨rfl, rfl⟩,
    fun f s hpass => ⟨fun hx => ?_, fun hx => ?_⟩, fun f s hpass => ⟨fun hin => ?_, fun hout hx => ?_⟩,
    fun s hx hdata => ?_⟩
  · exact store_writes rfl hpass (compute_store f s) (beq_eq_false_iff_ne.mpr (flagOf_ne_v _)) hx
  · exact exec_not_admitted hpass (congrArg some (compute_store_fst f s)) hx
  · exact overflowPolicyMattersOnlyOutOfRange (.store f) s ((inWordRange_and_iff _ _).mpr hin)
  · exact store_writes rfl hpass (compute_address_overflow (.inr rfl) hout) rfl hx
  · obtain ⟨t, hexec, ⟨-, hcond, -⟩, hstored, -⟩ :=
      exec_store_storage (f := fieldsOf 0x2F200064) (passes_always s.cond) (wrap_address rfl rfl) hx
    exact ⟨t, hexec, (hstored 100).trans hdata, hcond⟩

end Sys2Proof.Proofs
end

section
/-! PROOF. The statement about INVALID (spec/44_halt_control.md): the words of its two table rows, what an
executed INVALID leaves, and the theorem that settles the statement. -/

namespace Sys2Proof.Proofs

open Sys2Proof.Machine Sys2Proof.Claims

/-! ### The words of the two INVALID rows (R62) -/

/-- The decoder has a case of its own for the number 7. -/
theorem decode_eq_invalid7_iff (w : Word) : decode w = .invalid7 (fieldsOf w) ↔ opcodeNumber w = 7 := by
  unfold decode
  split
  case h_8 hseven => simp [hseven]
  all_goals simp_all

/-- The decoder's last case takes every number above the eight it names. -/
theorem decode_eq_invalidHigh_iff (w : Word) :
    decode w = .invalidHigh (fieldsOf w) ↔ 8 ≤ opcodeNumber w := by
  unfold decode
  split
  case h_9 =>
    simp_all only [imp_false, true_iff]
    omega
  all_goals simp [*]

/-! ### An executed INVALID (R121) -/

/-- Both forms leave INVALID's one result, which writes no target. -/
theorem exec_invalid_faults {f : Fields} {s : State} (hpass : passes s.cond f.mask = true) :
    ∃ t, exec (.invalid7 f) s = .next t ∧ exec (.invalidHigh f) s = .next t ∧
      OnlyAdvanced .v true s t ∧ MemoryUnchanged s t ∧ t.bus = s.bus :=
  ⟨invalidResult f s, exec_pass hpass, exec_pass hpass, invalidResult_onlyAdvanced f s,
    invalidResult_memory f s, resultOf_bus (.invalid7 f) s⟩

/-- Settles O28. -/
theorem invalidTakesTheFaultAndWritesNothingElse :
    Obligations.InvalidTakesTheFaultAndWritesNothingElse := by
  refine ⟨fun w => ?_, fun w => ?_, fun f s hpass => exec_invalid_faults hpass, fun f s hskip => ?_,
    fun s hthree => ?_⟩
  · rw [decode_eq_invalid7_iff, opcodeNumber_eq_div]
  · rw [decode_eq_invalidHigh_iff, opcodeNumber_eq_div]
  · exact ⟨skip s, exec_skip hskip, exec_skip hskip, skip_onlyAdvanced s, skip_memory s, rfl⟩
  · obtain ⟨t, hexec, -, ⟨hpc, hcond, hhalted, -⟩, -⟩ :=
      exec_invalid_faults (f := fieldsOf 0x7F000000) (passes_always s.cond)
    exact ⟨t, hexec, hcond, hhalted.trans (Bool.or_true _), hpc.trans (by rw [hthree]; rfl)⟩

end Sys2Proof.Proofs
end

section
/-! PROOF. The statements about the arithmetic fault and the model fault (spec/60_exceptions.md): the operands
that give the flag V, what an executed instruction with that flag leaves, where an instruction and a step stop,
and the theorems that settle the statements. -/

namespace Sys2Proof.Proofs

open Sys2Proof.Machine Sys2Proof.Claims

/-! ### The causes of the arithmetic fault (R92, R124) -/

/-- The operations without an exact value are the two rows of the table of causes. -/
theorem exactValue_eq_none_iff {op : Opcode} {l r : Word} :
    exactValue op l r = none ↔ op = .invalid ∨ (op = .div ∧ r = 0) := by
  cases op <;> simp [exactValue]

/-- Under `wrap` the ALU answers V where the operation has no exact value, and only there: the flag of a word
is never V. -/
theorem alu_wrap_flag_v_iff {op : Opcode} {l r : Word} :
    (alu .wrap op l r).2 = .v ↔ exactValue op l r = none := by
  cases he : exactValue op l r with
  | none => simp [alu_no_exactValue .wrap he, faultResult]
  | some e => simp [alu_wrap_exactValue he, flagOf_ne_v]

/-- Settles O10. -/
theorem faultFlagHasExactlyItsCauses : Obligations.FaultFlagHasExactlyItsCauses :=
  fun _ _ _ => ⟨alu_wrap_flag_v_iff.trans exactValue_eq_none_iff,
    fun hv => congrArg Prod.fst (alu_no_exactValue .wrap (alu_wrap_flag_v_iff.mp hv))⟩

/-! ### The arithmetic fault of an executed instruction (R101, R128) -/

/-- An executed instruction with the flag V completes, as an INVALID that only advances or as a DIV that writes
0 to its target; either takes the fault and leaves the memory alone. -/
theorem exec_flag_v {i : Instr} {s : State} (hpass : passes s.cond i.fields.mask = true)
    (hv : (aluOf i s).2 = .v) :
    ∃ t, exec i s = .next t ∧ MemoryUnchanged s t ∧
      ((i.op = .invalid ∧ OnlyAdvanced .v true s t) ∨
        (i.op = .div ∧ TargetWritten i.fields 0 .v true s t)) := by
  rcases exactValue_eq_none_iff.mp (alu_wrap_flag_v_iff.mp hv) with hop | ⟨hop, hzero⟩
  · cases i with
    | invalid7 f =>
      obtain ⟨t, hexec, -, hadvanced, hmemory, -⟩ := exec_invalid_faults hpass
      exact ⟨t, hexec, hmemory, .inl ⟨hop, hadvanced⟩⟩
    | invalidHigh f =>
      obtain ⟨t, -, hexec, hadvanced, hmemory, -⟩ := exec_invalid_faults hpass
      exact ⟨t, hexec, hmemory, .inl ⟨hop, hadvanced⟩⟩
    | _ => exact absurd hop nofun
  · cases i with
    | div f =>
      obtain ⟨t, hexec, htarget, hmemory, -⟩ := arith_writes rfl hpass (compute_div_zero hzero)
      exact ⟨t, hexec, hmemory, .inr ⟨hop, htarget⟩⟩
    | _ => exact absurd hop nofun

theorem memoryUnchanged_trans {s t u : State} (hst : MemoryUnchanged s t) (htu : MemoryUnchanged t u) :
    MemoryUnchanged s u := by
  obtain ⟨hword, hdevice⟩ := hst
  obtain ⟨hword', hdevice'⟩ := htu
  exact ⟨fun a => (hword' a).trans (hword a), hdevice'.trans hdevice⟩

/-- Settles O42: the step is the faulting instruction behind a fetch from storage, which changes no register, no
operand and no memory; from its HALTED state no step does anything. -/
theorem arithmeticFaultHaltsPrecisely : Obligations.ArithmeticFaultHaltsPrecisely := by
  intro s hrun hstorage hpass hv
  have hstep : step s = exec (fetched s) (afterTrace hardware s) :=
    (step_running hrun).trans (access_admitted (isStorage_admitted hstorage))
  obtain ⟨t, hexec, hmemory, hfault⟩ := exec_flag_v (s := afterTrace hardware s) hpass hv
  have hmemory' := memoryUnchanged_trans (afterTrace_memory hstorage) hmemory
  rcases hfault with ⟨hop, hpc, hcond, hhalted, -, hframe, -⟩ |
    ⟨hop, htarget, hpc, hcond, hhalted, -, -, hframe, -⟩
  · rw [Bool.or_true] at hhalted
    exact ⟨t, hstep.trans hexec, hcond, hhalted, fun _ => ⟨hframe, hpc⟩,
      fun hdiv => absurd (hop.symm.trans hdiv) nofun, hmemory', haltedIsAbsorbing t hhalted⟩
  · rw [Bool.or_true] at hhalted
    exact ⟨t, hstep.trans hexec, hcond, hhalted, fun hinvalid => absurd (hop.symm.trans hinvalid) nofun,
      fun _ => ⟨hframe, htarget.trans (ite_self 0), hpc⟩, hmemory', haltedIsAbsorbing t hhalted⟩

/-! ### Where an instruction and a step stop (R46, R125) -/

/-- The data address of an instruction is the effective address of a LOAD or a STORE (R88). -/
theorem dataAddr_eq_some {i : Instr} {s : State} {a : Word} (h : dataAddr i s = some a) :
    (i.op = .load ∨ i.op = .store) ∧ a = ea i.fields s := by
  cases i with
  | load f => exact ⟨.inl rfl, (Option.some.inj h).symm.trans (compute_load_fst f s)⟩
  | store f => exact ⟨.inr rfl, (Option.some.inj h).symm.trans (compute_store_fst f s)⟩
  | _ => exact absurd h nofun

/-- Everything an instruction can answer: a next state, or the model fault at its data address. -/
theorem exec_answers (i : Instr) (s : State) :
    (∃ t, exec i s = .next t) ∨
    (∃ a, exec i s = .fault (.memoryRange a) ∧ kindAt a s.regions = none ∧
      passes s.cond i.fields.mask = true ∧ (i.op = .load ∨ i.op = .store) ∧ a = ea i.fields s) := by
  cases hp : passes s.cond i.fields.mask with
  | false => exact .inl ⟨_, exec_skip hp⟩
  | true =>
    by_cases hadmitted : ∀ a, dataAddr i s = some a → kindAt a s.regions ≠ none
    · exact .inl ⟨_, exec_next.mpr (.inr ⟨hp, hadmitted, rfl⟩)⟩
    · push Not at hadmitted
      obtain ⟨a, ha, hnone⟩ := hadmitted
      exact .inr ⟨a, exec_not_admitted hp ha hnone, hnone, rfl, dataAddr_eq_some ha⟩

/-- Everything a step can answer: a next state, or the model fault at the fetch address or at the data address
of an executed LOAD or STORE. -/
theorem step_answers (s : State) :
    (∃ t, step s = .next t) ∨
    (∃ a, step s = .fault (.memoryRange a) ∧ kindAt a s.regions = none ∧
      (a = readReg 15 s ∨ (passes s.cond (fetched s).fields.mask = true ∧
        ((fetched s).op = .load ∨ (fetched s).op = .store) ∧ a = ea (fetched s).fields s))) := by
  cases hh : s.halted with
  | true => exact .inl ⟨s, step_halted hh⟩
  | false =>
    rw [step_running hh]
    by_cases hfetch : kindAt (pcOf s) s.regions = none
    · exact .inr ⟨pcOf s, access_absent hfetch, hfetch, .inl rfl⟩
    · rw [access_admitted hfetch]
      rcases exec_answers (fetched s) (afterTrace hardware s) with hnext | ⟨a, hfault, hnone, hdata⟩
      · exact .inl hnext
      · exact .inr ⟨a, hfault, hnone, .inr hdata⟩

/-- Settles O49. -/
theorem stepStopsOnlyAtTheMemory : Obligations.StepStopsOnlyAtTheMemory := by
  intro s
  rcases step_answers s with ⟨t, hnext⟩ | ⟨a, hfault, hstop⟩
  · rw [hnext]
    exact ⟨nofun, nofun⟩
  · rw [hfault]
    exact ⟨fun r hr => ⟨a, (Host.Outcome.fault.inj hr).symm, hstop⟩, nofun⟩

end Sys2Proof.Proofs
end

section
/-! PROOF. The statements about reset, the end of a run and the next step (spec/70_reset_and_hazards.md): how a
run ends, what a step keeps, and the theorems that settle the statements. -/

namespace Sys2Proof.Proofs

open Sys2Proof.Machine Sys2Proof.Claims

/-! ### The end of a run and the next start (R143) -/

theorem aluOf_flag_halt {i : Instr} (s : State) (h : i.op = .halt) : (aluOf i s).2 = .z := by
  simp [aluOf, alu, h]

/-- A step that ends the run executed its instruction, which is a HALT or has the flag V; `cond` is its flag. -/
theorem step_ends_run {s t : State} (hrun : s.halted = false) (hstep : step s = .next t)
    (hend : t.halted = true) :
    t.cond = (aluOf (fetched s) s).2 ∧ ((fetched s).op = .halt ∨ (aluOf (fetched s) s).2 = .v) := by
  obtain ⟨hhalts, -⟩ := haltedIsSetOnlyByHaltOrFault
  obtain ⟨hpass, hcause⟩ := (hhalts s t hrun hstep).mp hend
  rcases step_next_running hrun hstep with ⟨hskip, -⟩ | ⟨-, rfl⟩
  · rw [hskip] at hpass
    exact absurd hpass Bool.false_ne_true
  · exact ⟨resultOf_cond (afterTrace hardware s) (fetched s), hcause⟩

/-- Settles O46: the cause of the end is the flag left in `cond`, and `start` is O44's. -/
theorem secondRunStartsFromWhatTheFirstLeft : Obligations.SecondRunStartsFromWhatTheFirstLeft := by
  intro s t a hrun hstep hend
  obtain ⟨hcond, hcause⟩ := step_ends_run hrun hstep hend
  obtain ⟨u, hstart, hrunning, hpc, -, hkept, hframe, hmemory, -⟩ := startSetsOnlyThePcAndHalted a t hend
  exact ⟨fun hhalt => hcond.trans (aluOf_flag_halt s hhalt),
    fun hother => hcond.trans (hcause.resolve_left hother),
    u, hstart, hkept, hframe, hmemory, hpc, hrunning⟩

/-! ### The next step (R147) -/

/-- No step changes which addresses the memory admits. -/
theorem step_regions {s t : State} (hstep : step s = .next t) : t.regions = s.regions := by
  cases hh : s.halted with
  | true =>
    rw [step_halted hh, next_eq_next] at hstep
    exact congrArg State.regions hstep
  | false =>
    obtain ⟨hregions, -⟩ := stepChangesOnlyTargetPcAndStoredWord s t hh hstep
    exact hregions

/-- Settles O48: a step stops only at an address that is not admitted, and there is none. -/
theorem runningCoreAlwaysSteps : Obligations.RunningCoreAlwaysSteps := by
  intro s hadmitted
  rcases step_answers s with ⟨t, hstep⟩ | ⟨a, -, habsent, -⟩
  · refine ⟨t, hstep, step_regions hstep ▸ hadmitted, fun hrun => ?_⟩
    obtain ⟨htrace, -⟩ := everyStepEmitsOneTraceEvent s t hrun hstep
    exact congrArg List.length htrace
  · exact absurd habsent (hadmitted a)

end Sys2Proof.Proofs
end

section
/-! PROOF. The statements about the encoding of a decoded word (spec/30_encoding.md, spec/95_test_vectors.md 2.3)
and about the state after reset (spec/10_state.md): what the fields and the opcode bits of a word make together,
what power-on holds, and the theorems that settle the statements. -/

namespace Sys2Proof.Proofs

open Sys2Proof.Machine Sys2Proof.Claims

/-! ### The encoder after the decoder (R61, R69) -/

/-- The opcode bits and the five fields are all of a word: put back at their places they give it. -/
theorem assembleWord_opcodeBits_fieldsOf (w : Word) :
    assembleWord (w.extractLsb' 28 4) (fieldsOf w) = w := by
  apply BitVec.eq_of_toNat_eq
  rw [toNat_assembleWord]
  simp only [fieldsOf, BitVec.val_toFin, toNat_extractLsb'_eq_div_mod]
  omega

/-- The encoder's opcode field for a decoded word is the word's own, where the opcode is defined. -/
theorem opcodeField_decode {w : Word} (h : (decode w).op ≠ .invalid) :
    opcodeField (decode w) = w.extractLsb' 28 4 := by
  have hnumber : opcodeNumber w = (opcodeBits (decode w).op).toNat := (decode_op_eq_iff w h).mp rfl
  rw [opcodeField_eq_opcodeBits h]
  exact BitVec.eq_of_toNat_eq hnumber.symm

theorem encode_decode {w : Word} (h : (decode w).op ≠ .invalid) : encode (decode w) = w := by
  rw [encode, opcodeField_decode h, decode_fields, assembleWord_opcodeBits_fieldsOf]

theorem wellFormed_iff_op_ne (i : Instr) : WellFormed i = true ↔ i.op ≠ .invalid := bne_iff_ne

/-- Settles O16: a well-formed word's bits are its opcode and its fields, and the decoder reads every instruction
back, the two INVALID forms among them. -/
theorem decodeThenEncodeGivesTheWordBack : Obligations.DecodeThenEncodeGivesTheWordBack :=
  ⟨fun w h => encode_decode ((wellFormed_iff_op_ne (decode w)).mp h), fun i _ => decode_encode i⟩

/-- Settles O11, word by word. -/
theorem wordsOfTheVectorTableDecode : Obligations.WordsOfTheVectorTableDecode := by
  refine ⟨?_, ?_, ?_, ?_, ?_, ?_, ?_, ?_, ?_, ?_, ?_⟩ <;> decide

/-! ### The state after reset (R36, R43) -/

/-- At power-on a register reads its initial value, and register 0 reads 0. -/
theorem readReg_powerOn (initRegs : Reg → Word) (initCondition : Flag) (regions : List Region)
    (mem : Memory) (device : Nat) (r : Reg) :
    readReg r (State.powerOn initRegs initCondition regions mem device) = if r = 0 then 0 else initRegs r := by
  by_cases hr : r = 0 <;> simp [readReg, State.powerOn, hr]

/-- The one range of the platform holds every signed 32-bit address. -/
theorem kindAt_platform (a : Word) : kindAt a Config.platform = some .storage :=
  if_pos ⟨BitVec.le_toInt a, Int.le_of_lt_add_one BitVec.toInt_lt⟩

/-- Settles O51. -/
theorem resetIsPowerOnAtTheNamedValues : Obligations.ResetIsPowerOnAtTheNamedValues :=
  ⟨rfl, fun r => (readReg_powerOn _ _ _ _ _ r).trans (ite_self 0),
    fun a => ⟨(isStorage_iff a State.reset).mpr (kindAt_platform a), rfl⟩⟩

end Sys2Proof.Proofs
end
